-- ==== Sys2Proof/Word.lean ====
section
/-! DEFINITION. The fixed widths of the block's values: every quantity is unsigned (spec/00_scope.md R7, R150). -/

namespace Sys2Proof

/-- One byte of a frame, a burst or a descriptor (R7). -/
abbrev Byte := BitVec 8

/-- A 32-bit command or response word (R60). -/
abbrev Word := BitVec 32

/-- A 16-bit bus address (R24), and the width of a response's value field (R64). -/
abbrev Half := BitVec 16

/-- The slot number a command names: four bits, so 0 to 15 (R61, D5). -/
abbrev Slot := BitVec 4

end Sys2Proof
end

