-- ==== Sys2Proof/Config.lean ====
section
/-! DEFINITION. The implementation parameters of spec/00_scope.md R5, each a field of `Config`, the value R5 fixes being the
field's default.  State carries a `Config` and every meaning takes its parameters from there, so that a statement over all
states is a statement over all configurations. -/

namespace Sys2Proof

/-- R5: what is fixed when the block is built and is changed by no command and no reset (R231). -/
structure Config where
  /-- NFRAMES: frame slots in TC (any of 1 to 16). -/
  nframes            : Nat := 2
  /-- AQ_CAPACITY: the queue's capacity N (OPEN, at least 1; D23). -/
  aqCapacity         : Nat
  /-- FRAME_BYTES: bytes in one frame slot. -/
  frameBytes         : Nat := 23
  /-- FRAME_MIN: the shortest valid frame. -/
  frameMin           : Nat := 9
  /-- HDR_LEN_OFFSET: total frame length less payload length. -/
  hdrLenOffset       : Nat := 8
  /-- PAYLEN_MAX: the largest payload-length field value (D13). -/
  paylenMax          : Nat := 15
  /-- LONG_MAX: the most bytes a long payload carries, PAYLEN_MAX - 1 (D13). -/
  longMax            : Nat := paylenMax - 1
  /-- HEADER_BYTES: bytes TC.COPYHDR copies (D19; general knowledge, notes/assumptions/13.md). -/
  headerBytes        : Nat := 6
  /-- CTRL_DEFAULT: the control byte after TC.CLEAR and reset. -/
  ctrlDefault        : Byte := 0xBC
  /-- ROUTING_DEFAULT: the routing byte after TC.CLEAR and reset. -/
  routingDefault     : Byte := 0xE1
  /-- CTRL_PATTERN_MASK (D7; general knowledge, notes/assumptions/13.md). -/
  ctrlPatternMask    : Byte := 0x13
  /-- CTRL_PATTERN_VALUE (D7; general knowledge, notes/assumptions/13.md). -/
  ctrlPatternValue   : Byte := 0x10
  /-- CTRL_FORMAT_MASK (D6, D7; general knowledge, notes/assumptions/13.md). -/
  ctrlFormatMask     : Byte := 0xC0
  /-- CTRL_FORMAT_STANDARD (D6, D7; general knowledge, notes/assumptions/13.md). -/
  ctrlFormatStandard : Byte := 0x80
  /-- CTRL_REPEAT_MASK (D9; general knowledge, notes/assumptions/13.md). -/
  ctrlRepeatMask     : Byte := 0x20
  /-- CTRL_PRIORITY_MASK (D6; general knowledge, notes/assumptions/13.md). -/
  ctrlPriorityMask   : Byte := 0x0C
  /-- CMD_PATTERN_MASK (D12; general knowledge, notes/assumptions/13.md). -/
  cmdPatternMask     : Byte := 0xC0
  /-- CMD_PATTERN_VALUE (D12; general knowledge, notes/assumptions/13.md). -/
  cmdPatternValue    : Byte := 0x00
  /-- AQ_LOST_BITS: width of the loss counter (D24). -/
  aqLostBits         : Nat := 16
  /-- AI_MAX_OBJECTS: the most objects one AI.BUILD takes (D25). -/
  aiMaxObjects       : Nat := 255
  /-- AI_INDEX_BITS: width of an object index (D25). -/
  aiIndexBits        : Nat := 8
deriving DecidableEq, Repr

/-- The parameters on which the widths, offsets and formulas of the other rules rest have the value R5 fixes.  The six masks
and values of TC.VALIDATE's checks are not among them: they may be re-pointed (R145, D7, D12; notes/assumptions/12.md). -/
abbrev Config.fixed (c : Config) : Prop :=
  (c.frameBytes = 23 ∧ c.frameMin = 9 ∧ c.hdrLenOffset = 8 ∧ c.paylenMax = 15 ∧ c.longMax = 14 ∧ c.headerBytes = 6) ∧
  (c.ctrlDefault = 0xBC ∧ c.routingDefault = 0xE1 ∧ c.ctrlRepeatMask = 0x20 ∧ c.ctrlPriorityMask = 0x0C) ∧
  (c.aqLostBits = 16 ∧ c.aiMaxObjects = 255 ∧ c.aiIndexBits = 8)

/-- R5 and 93_implementation_defined.md X3: outside these bounds it is no configuration of the block. -/
abbrev Config.wf (c : Config) : Prop := 1 ≤ c.nframes ∧ c.nframes ≤ 16 ∧ 1 ≤ c.aqCapacity ∧ c.fixed

/-- FREE VALUE.  One less than the capacity the block was built with.  The spec leaves AQ_CAPACITY OPEN (D23), so no value of
it can be proved.  See notes/assumptions/3.md. -/
opaque Config.freeCapacity : Nat

/-- The configuration State.reset stands in: every parameter at the value R5 fixes, AQ_CAPACITY free and at least 1 (D23). -/
def Config.built : Config := { aqCapacity := Config.freeCapacity + 1 }

end Sys2Proof
end

