-- ==== Sys2Proof/Syntax.lean ====
section
/-! DEFINITION. The 35 commands of spec/30_encoding.md R70 as syntax, one constructor per row of spec/opcode_table.json.
A command is its word's operand fields together with the byte burst the word calls for (R60). -/

namespace Sys2Proof

/-- One object descriptor of AI.BUILD's burst (spec/44_address_index.md R181): the flags byte is kept whole, though the
block reads only its bit 0. -/
structure Descriptor where
  addr  : Half
  flags : Byte
deriving DecidableEq, Repr

/-- The commands in the order of R70.  Counts that only say how long a burst is (`n` of TC.SETLP and AI.BUILD, `vlen` of
AQ.APPEND) are the length of the burst held here. -/
inductive Instr where
  /-- TC.CLEAR f (R101). -/
  | tcClear (f : Slot)
  /-- TC.SETPRI f, p (R102). -/
  | tcSetpri (f : Slot) (p : BitVec 2)
  /-- TC.GETPRI f (R103). -/
  | tcGetpri (f : Slot)
  /-- TC.SETREP f (R104). -/
  | tcSetrep (f : Slot)
  /-- TC.SETSRC f, a (R105). -/
  | tcSetsrc (f : Slot) (a : Half)
  /-- TC.GETSRC f (R106). -/
  | tcGetsrc (f : Slot)
  /-- TC.SETDST f, a (R107). -/
  | tcSetdst (f : Slot) (a : Half)
  /-- TC.GETDST f (R108). -/
  | tcGetdst (f : Slot)
  /-- TC.SETMC f, b (R109). -/
  | tcSetmc (f : Slot) (b : BitVec 1)
  /-- TC.ISMC f (R110). -/
  | tcIsmc (f : Slot)
  /-- TC.SETHOP f, h (R111). -/
  | tcSethop (f : Slot) (h : BitVec 3)
  /-- TC.GETHOP f (R112). -/
  | tcGethop (f : Slot)
  /-- TC.SETLEN f, n (R113). -/
  | tcSetlen (f : Slot) (n : BitVec 4)
  /-- TC.GETLEN f (R114). -/
  | tcGetlen (f : Slot)
  /-- TC.SETCMD f, c (R121). -/
  | tcSetcmd (f : Slot) (c : BitVec 4)
  /-- TC.GETCMD f (R122). -/
  | tcGetcmd (f : Slot)
  /-- TC.SETFPB f, v (R123). -/
  | tcSetfpb (f : Slot) (v : BitVec 6)
  /-- TC.CLRFPB f (R124). -/
  | tcClrfpb (f : Slot)
  /-- TC.GETFPB f (R125). -/
  | tcGetfpb (f : Slot)
  /-- TC.SETLP f, n, [d0 ... d(n-1)] (R126): n is `data.length`. -/
  | tcSetlp (f : Slot) (data : List Byte)
  /-- TC.GETLP f, n (R127). -/
  | tcGetlp (f : Slot) (n : Byte)
  /-- TC.CLRLP f (R128). -/
  | tcClrlp (f : Slot)
  /-- TC.CALCCHK f (R141). -/
  | tcCalcchk (f : Slot)
  /-- TC.UPDCHK f (R142). -/
  | tcUpdchk (f : Slot)
  /-- TC.VALIDATE f (R143). -/
  | tcValidate (f : Slot)
  /-- TC.COPY f, g: f is the destination slot, g the source slot (R147). -/
  | tcCopy (f g : Slot)
  /-- TC.COPYHDR f, g: f is the destination slot, g the source slot (R148). -/
  | tcCopyhdr (f g : Slot)
  /-- TC.TLEN f (R129). -/
  | tcTlen (f : Slot)
  /-- TC.RDBYTE f, i (R130). -/
  | tcRdbyte (f : Slot) (i : BitVec 5)
  /-- TC.WRBYTE f, i, v (R131). -/
  | tcWrbyte (f : Slot) (i : BitVec 5) (v : Byte)
  /-- AQ.APPEND kind, index, short, [data] (R161): vlen is `data.length`; kind 3 can be written and answers ERR_ARG. -/
  | aqAppend (kind : BitVec 2) (index short : Byte) (data : List Byte)
  /-- AQ.POP (R163). -/
  | aqPop
  /-- AQ.LOST (R165). -/
  | aqLost
  /-- AI.BUILD n, [descriptor 0 ... descriptor n-1] (R182): n is `objs.length`. -/
  | aiBuild (objs : List Descriptor)
  /-- AI.LOOKUP a (R184). -/
  | aiLookup (a : Half)
deriving DecidableEq, Repr

/-- The row's mnemonic in R70's table. -/
def Instr.mnemonic : Instr → String
  | .tcClear _ => "TC.CLEAR"
  | .tcSetpri _ _ => "TC.SETPRI"
  | .tcGetpri _ => "TC.GETPRI"
  | .tcSetrep _ => "TC.SETREP"
  | .tcSetsrc _ _ => "TC.SETSRC"
  | .tcGetsrc _ => "TC.GETSRC"
  | .tcSetdst _ _ => "TC.SETDST"
  | .tcGetdst _ => "TC.GETDST"
  | .tcSetmc _ _ => "TC.SETMC"
  | .tcIsmc _ => "TC.ISMC"
  | .tcSethop _ _ => "TC.SETHOP"
  | .tcGethop _ => "TC.GETHOP"
  | .tcSetlen _ _ => "TC.SETLEN"
  | .tcGetlen _ => "TC.GETLEN"
  | .tcSetcmd _ _ => "TC.SETCMD"
  | .tcGetcmd _ => "TC.GETCMD"
  | .tcSetfpb _ _ => "TC.SETFPB"
  | .tcClrfpb _ => "TC.CLRFPB"
  | .tcGetfpb _ => "TC.GETFPB"
  | .tcSetlp _ _ => "TC.SETLP"
  | .tcGetlp _ _ => "TC.GETLP"
  | .tcClrlp _ => "TC.CLRLP"
  | .tcCalcchk _ => "TC.CALCCHK"
  | .tcUpdchk _ => "TC.UPDCHK"
  | .tcValidate _ => "TC.VALIDATE"
  | .tcCopy _ _ => "TC.COPY"
  | .tcCopyhdr _ _ => "TC.COPYHDR"
  | .tcTlen _ => "TC.TLEN"
  | .tcRdbyte _ _ => "TC.RDBYTE"
  | .tcWrbyte _ _ _ => "TC.WRBYTE"
  | .aqAppend _ _ _ _ => "AQ.APPEND"
  | .aqPop => "AQ.POP"
  | .aqLost => "AQ.LOST"
  | .aiBuild _ => "AI.BUILD"
  | .aiLookup _ => "AI.LOOKUP"

end Sys2Proof
end

