-- ==== Sys2Proof/Machine/State.lean ====
section
/-! DEFINITION. The state of the block (spec/10_state.md: the frame slots F, the queue Q, the loss counter lost, the index
table T), its two build parameters, and the two ends of its command port.  Plain data throughout. -/

namespace Sys2Proof.Machine

/-- Frame space (spec/20_memory.md R40, R41) as cells in one canonical form, see `Memory.wf` in Machine/Ops.lean: byte i of
slot f is the cell at address 23 f + i, and an address that is not listed reads as its reset content (R33). -/
abbrev Memory := List Host.Cell

/-- The kind of a PendingAction (R26, R162): code 3 is never stored, so it has no name. -/
inductive Kind where
  /-- code 0 -/
  | readRequest
  /-- code 1 -/
  | writeRequest
  /-- code 2 -/
  | responseRequest
deriving DecidableEq, Repr

/-- One queue entry, a PendingAction (R26).  Its field vlen is `data.length`. -/
structure Entry where
  kind  : Kind
  index : Byte
  short : Byte
  data  : List Byte
deriving DecidableEq, Repr

/-- One pair of the index table (R29): a bus address and the 0-based index of the object that carries it. -/
structure Pair where
  addr : Half
  idx  : Byte
deriving DecidableEq, Repr

/-- The status of a response (spec/30_encoding.md R65); the codes are in Machine/Flags.lean. -/
inductive Status where
  /-- the command did what its rule says -/
  | ok
  /-- the queue held no entry -/
  | empty
  /-- no table pair has the address -/
  | notFound
  /-- the word is no command -/
  | errIllegal
  /-- a command operand is outside its range -/
  | errArg
deriving DecidableEq, Repr

/-- A response (R60, R64): the fields of the response word and the byte burst that follows it. -/
structure Response where
  status : Status
  aux    : Byte
  value  : Half
  burst  : List Byte
deriving DecidableEq, Repr

/-- What the outside world can do to the block (R11 (8)): present a command, word and burst, or pulse the reset input. -/
inductive PortEvent where
  /-- a transaction on the command port (R60) -/
  | command (word : Word) (burst : List Byte)
  /-- the reset input is asserted and released (R230) -/
  | reset
deriving DecidableEq, Repr

/-- The machine's state.  `frames`, `queue`, `lost` and `table` are the whole architectural state (spec/10_state.md); `cfg` is
the block's build parameters (R5, R231); `input` and `response` are the MODEL'S OWN two ends of the command port
(notes/assumptions/1.md and 2.md). -/
structure State where
  /-- The parameters of R5: no command and no reset changes them (R231). -/
  cfg      : Config
  /-- F, the frame slots (R20). -/
  frames   : Memory
  /-- Q, oldest entry first (R25). -/
  queue    : List Entry
  /-- lost, the saturating 16-bit count of evicted entries (R28). -/
  lost     : BitVec 16
  /-- T, strictly ascending in address (R29). -/
  table    : List Pair
  /-- What the host has still to present on the port, first event first (R50). -/
  input    : List PortEvent
  /-- The response to the latest command, none since reset. -/
  response : Option Response
deriving DecidableEq, Repr

/-- Why the machine would stop with a fault: never.  "There is no outcome in which the block stops" (spec/60_exceptions.md
R200), so no meaning and no step raises one, and the type has no constructor.  Nothing is unsafe about an empty list. -/
inductive Fault
deriving DecidableEq, Repr

/-- Why a step gives no result. -/
inductive Refusal where
  /-- An arm of exec with no meaning yet raises it.  Safe: nothing can be proved about the instruction. -/
  | notModelled (mnemonic : String)
  /-- The step raises it for a transaction whose burst is not of the announced length (R63, R246, X1: no defined result, a
  model must refuse).  Safe. -/
  | burstLength
  /-- The step raises it when the parameters are no configuration of the block: NFRAMES outside 1 to 16, AQ_CAPACITY 0
  (X3), or one that R5 fixes at another value (notes/assumptions/4.md).  Safe. -/
  | notAConfiguration
deriving DecidableEq, Repr

/-- R33, R230: `init(NFRAMES, AQ_CAPACITY)`, the state when reset is released.  Every frame byte is at its reset content, so
no cell is listed. -/
def State.init (cfg : Config) : State :=
  ⟨cfg, [], [], 0, [], [], none⟩

/-- The machine right after reset: NFRAMES = 2, AQ_CAPACITY free, nothing on the port. -/
def State.reset : State := State.init Config.built

end Sys2Proof.Machine
end

