-- ==== Sys2Proof/Machine/Ops.lean ====
section
/-! DEFINITION. The named operations over the state: frame space, responding, the queue, the index table, reset.
The block has no exceptions; `answer` with a status other than ok is what stands in their place (spec/60_exceptions.md R200). -/

namespace Sys2Proof.Machine

/-! ## Frame space as memory -/

/-- The default frame (spec/40_tc_header_fields.md R101, spec/10_state.md R33): control and routing byte, the rest zero. -/
def defaultByte (c : Config) (i : Nat) : Byte :=
  if i = 0 then c.ctrlDefault else if i = 5 then c.routingDefault else 0

/-- What an address that is not listed reads as: the reset content of that byte of its slot (R33). -/
def Memory.unlisted (c : Config) (a : Nat) : Byte := defaultByte c (a % c.frameBytes)

/-- The canonical form: addresses strictly rising, no cell equal to what its address reads as unlisted. -/
abbrev Memory.wf (c : Config) (m : Memory) : Prop :=
  m.Pairwise (fun p q => p.1 < q.1) ∧ ∀ p ∈ m, p.2 ≠ Memory.unlisted c p.1

/-- Read one byte. -/
def Memory.read (c : Config) : Memory → Nat → Byte
  | [], a => Memory.unlisted c a
  | p :: m, a => if p.1 = a then p.2 else Memory.read c m a

/-- Put a cell in its place by address. -/
def Memory.insert : Memory → Nat → Byte → Memory
  | [], a, b => [(a, b)]
  | p :: m, a, b => if a < p.1 then (a, b) :: p :: m else p :: Memory.insert m a b

/-- Write one byte, keeping the canonical form: the address' old cell goes, and a new one comes only where it says more
than the unlisted address would. -/
def Memory.write (c : Config) (m : Memory) (a : Nat) (b : Byte) : Memory :=
  if b = Memory.unlisted c a then m.filter (fun p => p.1 != a) else Memory.insert (m.filter (fun p => p.1 != a)) a b

/-- The address of byte i of slot f (spec/20_memory.md R40 (a): slots do not alias, R20). -/
def frameAddr (c : Config) (f i : Nat) : Nat := f * c.frameBytes + i

/-- One byte of frame space by its address. -/
def State.read (s : State) (a : Nat) : Byte := Memory.read s.cfg s.frames a

/-- `F[f][i]` (R8). -/
def State.byte (s : State) (f i : Nat) : Byte := s.read (frameAddr s.cfg f i)

/-- `F[f][i] <- b` (R8). -/
def State.setByte (s : State) (f i : Nat) (b : Byte) : State :=
  { s with frames := Memory.write s.cfg s.frames (frameAddr s.cfg f i) b }

/-- The run `F[f][i]`, `F[f][i+1]`, … of n bytes. -/
def State.bytes (s : State) (f i n : Nat) : List Byte := (List.range n).map fun k => s.byte f (i + k)

/-- Store a run of bytes at offsets i, i+1, … of slot f. -/
def State.setBytes (s : State) (f i : Nat) : List Byte → State
  | [] => s
  | b :: bs => (s.setByte f i b).setBytes f (i + 1) bs

/-! ## Ending a command (spec/00_scope.md R9) -/

/-- `respond(status, value, burst)`: a command ends by producing its one response (R60); the next state holds it. -/
def answer (s : State) (r : Response) : Host.Outcome State Fault Refusal :=
  .next { s with response := some r }

/-- `respond(status)`: value 0, aux 0, an empty burst (R9, R65). -/
def bare (st : Status) : Response := ⟨st, 0, 0, []⟩

/-- `respond(OK)`. -/
def answerOk (s : State) : Host.Outcome State Fault Refusal := answer s (bare .ok)

/-- `respond(OK, v)`. -/
def answerValue (s : State) (v : Half) : Host.Outcome State Fault Refusal := answer s ⟨.ok, 0, v, []⟩

/-- `respond(OK, 0, burst)`. -/
def answerBurst (s : State) (burst : List Byte) : Host.Outcome State Fault Refusal := answer s ⟨.ok, 0, 0, burst⟩

/-- The irregular end of a command, shared by all: a status other than ok, and no other change of state (R200, R210).  This
is the block's whole exception mechanism: nothing is saved, no mode changes, nothing is to be returned from (R210, R211). -/
def answerStatus (s : State) (st : Status) : Host.Outcome State Fault Refusal := answer s (bare st)

/-! ## The queue (spec/43_action_queue.md) -/

/-- R166: `lost <- min(lost + 1, 0xFFFF)`, 0xFFFF being what AQ_LOST_BITS bits hold. -/
def bumpLost (c : Config) (n : BitVec 16) : BitVec 16 := BitVec.ofNat 16 (min (n.toNat + 1) (2 ^ c.aqLostBits - 1))

/-- R161: evict the oldest entry when the queue is full, then insert. -/
def State.enqueue (s : State) (e : Entry) : State :=
  if s.queue.length = s.cfg.aqCapacity then
    { s with queue := s.queue.tail ++ [e], lost := bumpLost s.cfg s.lost }
  else { s with queue := s.queue ++ [e] }

/-! ## The index table (spec/44_address_index.md) -/

/-- Insert a pair in ascending order of address; an address already there keeps its pair, so the first one in wins. -/
def Table.insertNew : List Pair → Pair → List Pair
  | [], p => [p]
  | q :: t, p => if p.addr < q.addr then p :: q :: t else if p.addr = q.addr then q :: t else q :: Table.insertNew t p

/-- R181: the communication capability flag, bit 0 of the flags byte; bits 7:1 are ignored. -/
def descriptorComm (d : Descriptor) : Bool := d.flags.getLsbD 0

/-- R183: add the objects from index i on, in index order, to a table: flagged ones only, the lowest index winning. -/
def Table.buildFrom (t : List Pair) (i : Nat) : List Descriptor → List Pair
  | [] => t
  | d :: ds => Table.buildFrom (if descriptorComm d then Table.insertNew t ⟨d.addr, BitVec.ofNat 8 i⟩ else t) (i + 1) ds

/-- R183: `build(n, addr, comm)`. -/
def Table.build (objs : List Descriptor) : List Pair := Table.buildFrom [] 0 objs

/-- R184: the index of the pair with exactly this address. -/
def Table.lookup : List Pair → Half → Option Byte
  | [], _ => none
  | p :: t, a => if p.addr = a then some p.idx else Table.lookup t a

/-! ## Reset (spec/70_reset_and_hazards.md R230) -/

/-- The reset input pulsed: all state at its reset value, no response; what the host has still to present stays. -/
def State.afterReset (s : State) : State := { State.init s.cfg with input := s.input }

end Sys2Proof.Machine
end

