-- ==== Sys2Proof/Machine/Operands.lean ====
section
/-! DEFINITION. Every operand form of the commands: slot operands and their check, counts, the fields of a frame as views of
its bytes (spec/10_state.md R21 to R24), and the assembly of a queue entry. -/

namespace Sys2Proof.Machine

/-! ## Slot operands and counts -/

/-- R68, R100 (a): `require f < NFRAMES else respond(ERR_ARG)`, before anything else. -/
def withSlot (f : Slot) (s : State) (run : Host.Outcome State Fault Refusal) : Host.Outcome State Fault Refusal :=
  if f.toNat < s.cfg.nframes then run else answerStatus s .errArg

/-- A further operand check (R208, step 3): `require c else respond(ERR_ARG)`. -/
def require (c : Prop) [Decidable c] (s : State) (run : Host.Outcome State Fault Refusal) :
    Host.Outcome State Fault Refusal :=
  if c then run else answerStatus s .errArg

/-- R120: `m = min(n, 14)`. -/
def clampCount (c : Config) (n : Nat) : Nat := min n c.longMax

/-! ## The control byte (R21) -/

/-- PRI, bits 3:2. -/
def priorityOf (b : Byte) : BitVec 2 := b.extractLsb' 2 2

/-- R102: replace PRI. -/
def withPriority (c : Config) (b : Byte) (p : BitVec 2) : Byte := (b &&& ~~~c.ctrlPriorityMask) ||| (p.setWidth 8 <<< 2)

/-- R104: mark repeated by clearing NR, which is active low. -/
def withRepeated (c : Config) (b : Byte) : Byte := b &&& ~~~c.ctrlRepeatMask

/-! ## The address fields (R24, R44): most significant byte first -/

/-- The 16-bit value of two bytes, high byte first. -/
def halfOf (hi lo : Byte) : Half := hi ++ lo

/-- The two bytes of an address in frame order. -/
def halfBytes (a : Half) : List Byte := [a.extractLsb' 8 8, a.extractLsb' 0 8]

/-! ## The routing byte (R22) -/

/-- MC, bit 7. -/
def multicastOf (b : Byte) : BitVec 1 := b.extractLsb' 7 1

/-- R109: replace MC. -/
def withMulticast (b : Byte) (m : BitVec 1) : Byte := (b &&& 0x7F) ||| (m.setWidth 8 <<< 7)

/-- HOP, bits 6:4. -/
def hopOf (b : Byte) : BitVec 3 := b.extractLsb' 4 3

/-- R111: replace HOP. -/
def withHop (b : Byte) (h : BitVec 3) : Byte := (b &&& 0x8F) ||| (h.setWidth 8 <<< 4)

/-- LEN, bits 3:0. -/
def lengthOf (b : Byte) : BitVec 4 := b.extractLsb' 0 4

/-- R113: replace LEN. -/
def withLength (b : Byte) (n : BitVec 4) : Byte := (b &&& 0xF0) ||| n.setWidth 8

/-- `L(f)`, the payload length of a slot (R8, R22). -/
def State.payloadLen (s : State) (f : Nat) : Nat := (lengthOf (s.byte f 5)).toNat

/-! ## The command bytes (R23) -/

/-- The 4-bit command code: CMDH is bits 1:0 of the first byte, CMDL bits 7:6 of the second. -/
def commandOf (b6 b7 : Byte) : BitVec 4 := b6.extractLsb' 0 2 ++ b7.extractLsb' 6 2

/-- R121: replace CMDH in the first command byte. -/
def withCommandHigh (b6 : Byte) (c : BitVec 4) : Byte := (b6 &&& 0xFC) ||| (c.extractLsb' 2 2).setWidth 8

/-- R121: replace CMDL in the second command byte. -/
def withCommandLow (b7 : Byte) (c : BitVec 4) : Byte := (b7 &&& 0x3F) ||| ((c.extractLsb' 0 2).setWidth 8 <<< 6)

/-- FPB, bits 5:0 of the second command byte. -/
def firstPayloadOf (b7 : Byte) : BitVec 6 := b7.extractLsb' 0 6

/-- R123: replace FPB. -/
def withFirstPayload (b7 : Byte) (v : BitVec 6) : Byte := (b7 &&& 0xC0) ||| v.setWidth 8

/-- R124: clear FPB. -/
def clearFirstPayload (b7 : Byte) : Byte := b7 &&& 0xC0

/-! ## Queue entries (R69, R162) -/

/-- The kind a 2-bit code names; 3 names none. -/
def kindOfCode (k : BitVec 2) : Option Kind :=
  if k = 0 then some .readRequest else if k = 1 then some .writeRequest else if k = 2 then some .responseRequest else none

/-- The 2-bit code of a kind. -/
def kindCode : Kind → BitVec 2
  | .readRequest => 0
  | .writeRequest => 1
  | .responseRequest => 2

/-- R64: the aux byte of a popped entry, vlen in bits 7:4, zeros in 3:2, kind in 1:0. -/
def entryAux (e : Entry) : Byte := BitVec.ofNat 4 e.data.length ++ (0 : BitVec 2) ++ kindCode e.kind

/-- R64: the value of a popped entry, index in the high byte, short in the low. -/
def entryValue (e : Entry) : Half := e.index ++ e.short

end Sys2Proof.Machine
end

