-- ==== Sys2Proof/Machine/Flags.lean ====
section
/-! DEFINITION. The block keeps no flags (spec/10_state.md R31).  What stands in their place: the status and layout of the
response word (spec/30_encoding.md R64, R65), the checksum, and the verdict of TC.VALIDATE
(spec/42_tc_checksum_validate_copy.md R140, R143 to R146). -/

namespace Sys2Proof.Machine

/-- R65: the status codes. -/
def statusCode : Status → BitVec 4
  | .ok => 0
  | .empty => 1
  | .notFound => 2
  | .errIllegal => 8
  | .errArg => 9

/-- R64: the response word, status in 31:28, zeros in 27:24, aux in 23:16, value in 15:0. -/
def Response.word (r : Response) : Word := statusCode r.status ++ (0 : BitVec 4) ++ r.aux ++ r.value

/-! ## The checksum -/

/-- The exclusive-or of the first n bytes of slot f. -/
def State.xorUpTo (s : State) (f : Nat) : Nat → Byte
  | 0 => 0
  | n + 1 => s.xorUpTo f n ^^^ s.byte f n

/-- R140: `chk(f) = ~(F[f][0] ^ ... ^ F[f][6+L])`. -/
def State.chk (s : State) (f : Nat) : Byte := ~~~ s.xorUpTo f (7 + s.payloadLen f)

/-! ## The verdict -/

/-- R144: the seven outcomes of TC.VALIDATE. -/
inductive Verdict where
  | valid
  | badControl
  | badFormat
  | zeroLength
  | badCommandField
  | badChecksum
  | unknownCommand
deriving DecidableEq, Repr

/-- R144: the verdict codes. -/
def verdictCode : Verdict → Half
  | .valid => 0
  | .badControl => 1
  | .badFormat => 2
  | .zeroLength => 3
  | .badCommandField => 4
  | .badChecksum => 5
  | .unknownCommand => 6

/-- R145 (1): the control-field pattern is right. -/
def controlOk (c : Config) (b0 : Byte) : Bool := b0 &&& c.ctrlPatternMask == c.ctrlPatternValue

/-- R145 (2): the frame format is the standard one. -/
def formatOk (c : Config) (b0 : Byte) : Bool := b0 &&& c.ctrlFormatMask == c.ctrlFormatStandard

/-- R145 (4): the command-field pattern is right. -/
def commandFieldOk (c : Config) (b6 : Byte) : Bool := b6 &&& c.cmdPatternMask == c.cmdPatternValue

/-- R145 (6): Read 0, Response 1, Write 2 and MemoryWrite 10 are the recognised codes. -/
def recognised (c : BitVec 4) : Bool := c == 0 || c == 1 || c == 2 || c == 10

/-- R143, R146: the first failing check decides. -/
def State.verdict (s : State) (f : Nat) : Verdict :=
  if ¬ controlOk s.cfg (s.byte f 0) then .badControl
  else if ¬ formatOk s.cfg (s.byte f 0) then .badFormat
  else if s.payloadLen f = 0 then .zeroLength
  else if ¬ commandFieldOk s.cfg (s.byte f 6) then .badCommandField
  else if s.byte f (7 + s.payloadLen f) ≠ s.chk f then .badChecksum
  else if ¬ recognised (commandOf (s.byte f 6) (s.byte f 7)) then .unknownCommand
  else .valid

end Sys2Proof.Machine
end

