-- ==== Sys2Proof/Machine/Checksum.lean ====
section
/-! DEFINITION. TC checksum, validation and copy commands (spec/42_tc_checksum_validate_copy.md R140 to R148). -/

namespace Sys2Proof.Machine

/-- R141. -/
def execTcCalcchk (f : Slot) (s : State) : Host.Outcome State Fault Refusal :=
  withSlot f s (answerValue s ((s.chk f.toNat).setWidth 16))

/-- R142: one byte is written, at offset 7 + L. -/
def execTcUpdchk (f : Slot) (s : State) : Host.Outcome State Fault Refusal :=
  withSlot f s (answerOk (s.setByte f.toNat (7 + s.payloadLen f.toNat) (s.chk f.toNat)))

/-- R143: the verdict is a value under status OK. -/
def execTcValidate (f : Slot) (s : State) : Host.Outcome State Fault Refusal :=
  withSlot f s (answerValue s (verdictCode (s.verdict f.toNat)))

/-- R147: f is the destination. -/
def execTcCopy (f g : Slot) (s : State) : Host.Outcome State Fault Refusal :=
  withSlot f s (withSlot g s (answerOk (s.setBytes f.toNat 0 (s.bytes g.toNat 0 s.cfg.frameBytes))))

/-- R148: f is the destination. -/
def execTcCopyhdr (f g : Slot) (s : State) : Host.Outcome State Fault Refusal :=
  withSlot f s (withSlot g s (answerOk (s.setBytes f.toNat 0 (s.bytes g.toNat 0 s.cfg.headerBytes))))

end Sys2Proof.Machine
end

