-- ==== Sys2Proof/Machine/Header.lean ====
section
/-! DEFINITION. TC commands on the control byte, the addresses and the routing byte (spec/40_tc_header_fields.md R100 to R114). -/

namespace Sys2Proof.Machine

/-- R101: all 23 bytes take the default frame. -/
def execTcClear (f : Slot) (s : State) : Host.Outcome State Fault Refusal :=
  withSlot f s (answerOk (s.setBytes f.toNat 0 ((List.range s.cfg.frameBytes).map (defaultByte s.cfg))))

/-- R102. -/
def execTcSetpri (f : Slot) (p : BitVec 2) (s : State) : Host.Outcome State Fault Refusal :=
  withSlot f s (answerOk (s.setByte f.toNat 0 (withPriority s.cfg (s.byte f.toNat 0) p)))

/-- R103. -/
def execTcGetpri (f : Slot) (s : State) : Host.Outcome State Fault Refusal :=
  withSlot f s (answerValue s ((priorityOf (s.byte f.toNat 0)).setWidth 16))

/-- R104. -/
def execTcSetrep (f : Slot) (s : State) : Host.Outcome State Fault Refusal :=
  withSlot f s (answerOk (s.setByte f.toNat 0 (withRepeated s.cfg (s.byte f.toNat 0))))

/-- R105: high byte at offset 1, low byte at offset 2. -/
def execTcSetsrc (f : Slot) (a : Half) (s : State) : Host.Outcome State Fault Refusal :=
  withSlot f s (answerOk (s.setBytes f.toNat 1 (halfBytes a)))

/-- R106. -/
def execTcGetsrc (f : Slot) (s : State) : Host.Outcome State Fault Refusal :=
  withSlot f s (answerValue s (halfOf (s.byte f.toNat 1) (s.byte f.toNat 2)))

/-- R107: high byte at offset 3, low byte at offset 4. -/
def execTcSetdst (f : Slot) (a : Half) (s : State) : Host.Outcome State Fault Refusal :=
  withSlot f s (answerOk (s.setBytes f.toNat 3 (halfBytes a)))

/-- R108. -/
def execTcGetdst (f : Slot) (s : State) : Host.Outcome State Fault Refusal :=
  withSlot f s (answerValue s (halfOf (s.byte f.toNat 3) (s.byte f.toNat 4)))

/-- R109. -/
def execTcSetmc (f : Slot) (b : BitVec 1) (s : State) : Host.Outcome State Fault Refusal :=
  withSlot f s (answerOk (s.setByte f.toNat 5 (withMulticast (s.byte f.toNat 5) b)))

/-- R110. -/
def execTcIsmc (f : Slot) (s : State) : Host.Outcome State Fault Refusal :=
  withSlot f s (answerValue s ((multicastOf (s.byte f.toNat 5)).setWidth 16))

/-- R111. -/
def execTcSethop (f : Slot) (h : BitVec 3) (s : State) : Host.Outcome State Fault Refusal :=
  withSlot f s (answerOk (s.setByte f.toNat 5 (withHop (s.byte f.toNat 5) h)))

/-- R112. -/
def execTcGethop (f : Slot) (s : State) : Host.Outcome State Fault Refusal :=
  withSlot f s (answerValue s ((hopOf (s.byte f.toNat 5)).setWidth 16))

/-- R113: a payload length of 0 is refused. -/
def execTcSetlen (f : Slot) (n : BitVec 4) (s : State) : Host.Outcome State Fault Refusal :=
  withSlot f s (require (1 ≤ n.toNat) s (answerOk (s.setByte f.toNat 5 (withLength (s.byte f.toNat 5) n))))

/-- R114. -/
def execTcGetlen (f : Slot) (s : State) : Host.Outcome State Fault Refusal :=
  withSlot f s (answerValue s ((lengthOf (s.byte f.toNat 5)).setWidth 16))

end Sys2Proof.Machine
end

