-- ==== Sys2Proof/Machine/Index.lean ====
section
/-! DEFINITION. The address index commands (spec/44_address_index.md R180 to R186). -/

namespace Sys2Proof.Machine

/-- R182: the old table is replaced whole. -/
def execAiBuild (objs : List Descriptor) (s : State) : Host.Outcome State Fault Refusal :=
  answerOk { s with table := Table.build objs }

/-- R184: exact match or NOT_FOUND. -/
def execAiLookup (a : Half) (s : State) : Host.Outcome State Fault Refusal :=
  match Table.lookup s.table a with
  | some i => answerValue s (i.setWidth 16)
  | none => answerStatus s .notFound

end Sys2Proof.Machine
end

