-- ==== Sys2Proof/Machine/Payload.lean ====
section
/-! DEFINITION. TC commands on the command field, the payload and raw bytes (spec/41_tc_command_payload.md R120 to R131). -/

namespace Sys2Proof.Machine

/-- R121: the code is split over offsets 6 and 7. -/
def execTcSetcmd (f : Slot) (c : BitVec 4) (s : State) : Host.Outcome State Fault Refusal :=
  withSlot f s (answerOk (s.setBytes f.toNat 6
    [withCommandHigh (s.byte f.toNat 6) c, withCommandLow (s.byte f.toNat 7) c]))

/-- R122. -/
def execTcGetcmd (f : Slot) (s : State) : Host.Outcome State Fault Refusal :=
  withSlot f s (answerValue s ((commandOf (s.byte f.toNat 6) (s.byte f.toNat 7)).setWidth 16))

/-- R123: the six bits are replaced, not merged. -/
def execTcSetfpb (f : Slot) (v : BitVec 6) (s : State) : Host.Outcome State Fault Refusal :=
  withSlot f s (answerOk (s.setByte f.toNat 7 (withFirstPayload (s.byte f.toNat 7) v)))

/-- R124. -/
def execTcClrfpb (f : Slot) (s : State) : Host.Outcome State Fault Refusal :=
  withSlot f s (answerOk (s.setByte f.toNat 7 (clearFirstPayload (s.byte f.toNat 7))))

/-- R125. -/
def execTcGetfpb (f : Slot) (s : State) : Host.Outcome State Fault Refusal :=
  withSlot f s (answerValue s ((firstPayloadOf (s.byte f.toNat 7)).setWidth 16))

/-- R126: the first min(n, 14) burst bytes go to offset 8 and up; the rest are dropped. -/
def execTcSetlp (f : Slot) (data : List Byte) (s : State) : Host.Outcome State Fault Refusal :=
  withSlot f s (answerOk (s.setBytes f.toNat 8 (data.take (clampCount s.cfg data.length))))

/-- R127. -/
def execTcGetlp (f : Slot) (n : Byte) (s : State) : Host.Outcome State Fault Refusal :=
  withSlot f s (answerBurst s (s.bytes f.toNat 8 (clampCount s.cfg n.toNat)))

/-- R128: all 14 long-payload positions, whatever L is. -/
def execTcClrlp (f : Slot) (s : State) : Host.Outcome State Fault Refusal :=
  withSlot f s (answerOk (s.setBytes f.toNat 8 (List.replicate s.cfg.longMax 0)))

/-- R129. -/
def execTcTlen (f : Slot) (s : State) : Host.Outcome State Fault Refusal :=
  withSlot f s (answerValue s (BitVec.ofNat 16 (s.cfg.hdrLenOffset + s.payloadLen f.toNat)))

/-- R130: offsets above 22 are refused. -/
def execTcRdbyte (f : Slot) (i : BitVec 5) (s : State) : Host.Outcome State Fault Refusal :=
  withSlot f s (require (i.toNat < s.cfg.frameBytes) s (answerValue s ((s.byte f.toNat i.toNat).setWidth 16)))

/-- R131: offsets above 22 are refused. -/
def execTcWrbyte (f : Slot) (i : BitVec 5) (v : Byte) (s : State) : Host.Outcome State Fault Refusal :=
  withSlot f s (require (i.toNat < s.cfg.frameBytes) s (answerOk (s.setByte f.toNat i.toNat v)))

end Sys2Proof.Machine
end

