-- ==== Sys2Proof/Machine/Queue.lean ====
section
/-! DEFINITION. The action queue commands (spec/43_action_queue.md R160 to R167). -/

namespace Sys2Proof.Machine

/-- R161: kind 3 and vlen 15 are refused; otherwise the command always succeeds. -/
def execAqAppend (kind : BitVec 2) (index short : Byte) (data : List Byte) (s : State) :
    Host.Outcome State Fault Refusal :=
  match kindOfCode kind with
  | some k => require (data.length ≤ s.cfg.longMax) s (answerOk (s.enqueue ⟨k, index, short, data⟩))
  | none => answerStatus s .errArg

/-- R163: the oldest entry leaves the queue and is the response. -/
def execAqPop (s : State) : Host.Outcome State Fault Refusal :=
  match s.queue with
  | [] => answerStatus s .empty
  | e :: q => answer { s with queue := q } ⟨.ok, entryAux e, entryValue e, e.data⟩

/-- R165. -/
def execAqLost (s : State) : Host.Outcome State Fault Refusal :=
  answerValue s s.lost

end Sys2Proof.Machine
end

