-- ==== Sys2Proof/Machine/Dispatch.lean ====
section
/-! DEFINITION. One meaning for each of the 35 commands. -/

namespace Sys2Proof.Machine

def exec (i : Instr) (s : State) : Host.Outcome State Fault Refusal :=
  match i with
  | .tcClear f => Sys2Proof.Machine.execTcClear f s
  | .tcSetpri f p => Sys2Proof.Machine.execTcSetpri f p s
  | .tcGetpri f => Sys2Proof.Machine.execTcGetpri f s
  | .tcSetrep f => Sys2Proof.Machine.execTcSetrep f s
  | .tcSetsrc f a => Sys2Proof.Machine.execTcSetsrc f a s
  | .tcGetsrc f => Sys2Proof.Machine.execTcGetsrc f s
  | .tcSetdst f a => Sys2Proof.Machine.execTcSetdst f a s
  | .tcGetdst f => Sys2Proof.Machine.execTcGetdst f s
  | .tcSetmc f b => Sys2Proof.Machine.execTcSetmc f b s
  | .tcIsmc f => Sys2Proof.Machine.execTcIsmc f s
  | .tcSethop f h => Sys2Proof.Machine.execTcSethop f h s
  | .tcGethop f => Sys2Proof.Machine.execTcGethop f s
  | .tcSetlen f n => Sys2Proof.Machine.execTcSetlen f n s
  | .tcGetlen f => Sys2Proof.Machine.execTcGetlen f s
  | .tcSetcmd f c => Sys2Proof.Machine.execTcSetcmd f c s
  | .tcGetcmd f => Sys2Proof.Machine.execTcGetcmd f s
  | .tcSetfpb f v => Sys2Proof.Machine.execTcSetfpb f v s
  | .tcClrfpb f => Sys2Proof.Machine.execTcClrfpb f s
  | .tcGetfpb f => Sys2Proof.Machine.execTcGetfpb f s
  | .tcSetlp f data => Sys2Proof.Machine.execTcSetlp f data s
  | .tcGetlp f n => Sys2Proof.Machine.execTcGetlp f n s
  | .tcClrlp f => Sys2Proof.Machine.execTcClrlp f s
  | .tcCalcchk f => Sys2Proof.Machine.execTcCalcchk f s
  | .tcUpdchk f => Sys2Proof.Machine.execTcUpdchk f s
  | .tcValidate f => Sys2Proof.Machine.execTcValidate f s
  | .tcCopy f g => Sys2Proof.Machine.execTcCopy f g s
  | .tcCopyhdr f g => Sys2Proof.Machine.execTcCopyhdr f g s
  | .tcTlen f => Sys2Proof.Machine.execTcTlen f s
  | .tcRdbyte f k => Sys2Proof.Machine.execTcRdbyte f k s
  | .tcWrbyte f k v => Sys2Proof.Machine.execTcWrbyte f k v s
  | .aqAppend kind index short data => Sys2Proof.Machine.execAqAppend kind index short data s
  | .aqPop => Sys2Proof.Machine.execAqPop s
  | .aqLost => Sys2Proof.Machine.execAqLost s
  | .aiBuild objs => Sys2Proof.Machine.execAiBuild objs s
  | .aiLookup a => Sys2Proof.Machine.execAiLookup a s

end Sys2Proof.Machine
end

