-- ==== Sys2Proof/WellFormed.lean ====
section
/-! DEFINITION. Which instruction terms some transaction stands for.  Every operand field has exactly its encoded width, so
the only thing a term can get wrong is a burst longer than its word's count field can announce (spec/30_encoding.md R63). -/

namespace Sys2Proof

/-- R63: TC.SETLP announces 0 to 255 bytes, AQ.APPEND 0 to 15 (15 is encodable and answers ERR_ARG), AI.BUILD 0 to 255
descriptors. -/
abbrev Instr.WellFormed : Instr → Prop
  | .tcSetlp _ data => data.length ≤ 255
  | .aqAppend _ _ _ data => data.length ≤ 15
  | .aiBuild objs => objs.length ≤ 255
  | .tcClear _ | .tcSetpri _ _ | .tcGetpri _ | .tcSetrep _ | .tcSetsrc _ _ | .tcGetsrc _ | .tcSetdst _ _ | .tcGetdst _
  | .tcSetmc _ _ | .tcIsmc _ | .tcSethop _ _ | .tcGethop _ | .tcSetlen _ _ | .tcGetlen _ | .tcSetcmd _ _ | .tcGetcmd _
  | .tcSetfpb _ _ | .tcClrfpb _ | .tcGetfpb _ | .tcGetlp _ _ | .tcClrlp _ | .tcCalcchk _ | .tcUpdchk _ | .tcValidate _
  | .tcCopy _ _ | .tcCopyhdr _ _ | .tcTlen _ | .tcRdbyte _ _ | .tcWrbyte _ _ _ | .aqPop | .aqLost | .aiLookup _ => True

end Sys2Proof
end

