-- ==== Sys2Proof/Decode.lean ====
section
/-! DEFINITION. The command encoding of spec/30_encoding.md: decoding a transaction (a 32-bit word and its burst), total and
rejecting by name, and the encoder written from the same table.  Decoding depends on the transaction alone (R52, R70). -/

namespace Sys2Proof

/-- Why a transaction is no command. -/
inductive DecodeError where
  /-- R71: the opcode is none of the 35.  The block answers ERR_ILLEGAL. -/
  | unknownOpcode
  /-- R72: a known opcode with a reserved bit set.  The block answers ERR_ILLEGAL. -/
  | reservedBits
  /-- R63, 93_implementation_defined.md X1: the burst is not of the length the word announces (none, after an illegal word). -/
  | burstLength
deriving DecidableEq, Repr

/-- R62: which fields of the word a command uses. -/
inductive Format where
  /-- no field -/
  | n
  /-- `f` -/
  | s
  /-- `f` and low bits of `imm` -/
  | si
  /-- `f` (destination) and `g` (source) -/
  | ss
  /-- low bits of `imm` -/
  | i
  /-- vlen, kind, index, short -/
  | q
deriving DecidableEq, Repr

/-- One row of R70's table: a word is this command exactly when `w &&& mask = pattern`. -/
structure Row where
  mnemonic : String
  format   : Format
  pattern  : Word
  mask     : Word
  burstLen : Word → Nat
  assemble : Word → List Byte → Instr

/-- R61: bits 31:24. -/
def opField (w : Word) : Byte := w.extractLsb' 24 8

/-- R61: bits 23:20, the slot (vlen for AQ.APPEND). -/
def slotField (w : Word) : Slot := w.extractLsb' 20 4

/-- R61: bits 19:16, the source slot. -/
def sourceField (w : Word) : Slot := w.extractLsb' 16 4

/-- R74: the length of the burst of a command that takes none. -/
def noBurst (_ : Word) : Nat := 0

/-- R181: three bytes a descriptor, address high byte, address low byte, flags. -/
def descriptorsOf : List Byte → List Descriptor
  | hi :: lo :: flags :: rest => ⟨hi ++ lo, flags⟩ :: descriptorsOf rest
  | _ => []

/-- R70, the rows of spec/40_tc_header_fields.md. -/
def headerRows : List Row := [
  ⟨"TC.CLEAR", .s, 0x00000000, 0xFF0FFFFF, noBurst, fun w _ => .tcClear (slotField w)⟩,
  ⟨"TC.SETPRI", .si, 0x01000000, 0xFF0FFFFC, noBurst, fun w _ => .tcSetpri (slotField w) (w.extractLsb' 0 2)⟩,
  ⟨"TC.GETPRI", .s, 0x02000000, 0xFF0FFFFF, noBurst, fun w _ => .tcGetpri (slotField w)⟩,
  ⟨"TC.SETREP", .s, 0x03000000, 0xFF0FFFFF, noBurst, fun w _ => .tcSetrep (slotField w)⟩,
  ⟨"TC.SETSRC", .si, 0x04000000, 0xFF0F0000, noBurst, fun w _ => .tcSetsrc (slotField w) (w.extractLsb' 0 16)⟩,
  ⟨"TC.GETSRC", .s, 0x05000000, 0xFF0FFFFF, noBurst, fun w _ => .tcGetsrc (slotField w)⟩,
  ⟨"TC.SETDST", .si, 0x06000000, 0xFF0F0000, noBurst, fun w _ => .tcSetdst (slotField w) (w.extractLsb' 0 16)⟩,
  ⟨"TC.GETDST", .s, 0x07000000, 0xFF0FFFFF, noBurst, fun w _ => .tcGetdst (slotField w)⟩,
  ⟨"TC.SETMC", .si, 0x08000000, 0xFF0FFFFE, noBurst, fun w _ => .tcSetmc (slotField w) (w.extractLsb' 0 1)⟩,
  ⟨"TC.ISMC", .s, 0x09000000, 0xFF0FFFFF, noBurst, fun w _ => .tcIsmc (slotField w)⟩,
  ⟨"TC.SETHOP", .si, 0x0A000000, 0xFF0FFFF8, noBurst, fun w _ => .tcSethop (slotField w) (w.extractLsb' 0 3)⟩,
  ⟨"TC.GETHOP", .s, 0x0B000000, 0xFF0FFFFF, noBurst, fun w _ => .tcGethop (slotField w)⟩,
  ⟨"TC.SETLEN", .si, 0x0C000000, 0xFF0FFFF0, noBurst, fun w _ => .tcSetlen (slotField w) (w.extractLsb' 0 4)⟩,
  ⟨"TC.GETLEN", .s, 0x0D000000, 0xFF0FFFFF, noBurst, fun w _ => .tcGetlen (slotField w)⟩]

/-- R70, the rows of spec/41_tc_command_payload.md (and TC.CALCCHK to TC.COPYHDR, which R70 lists among them, of 42_tc_checksum_validate_copy.md). -/
def payloadRows : List Row := [
  ⟨"TC.SETCMD", .si, 0x0E000000, 0xFF0FFFF0, noBurst, fun w _ => .tcSetcmd (slotField w) (w.extractLsb' 0 4)⟩,
  ⟨"TC.GETCMD", .s, 0x0F000000, 0xFF0FFFFF, noBurst, fun w _ => .tcGetcmd (slotField w)⟩,
  ⟨"TC.SETFPB", .si, 0x10000000, 0xFF0FFFC0, noBurst, fun w _ => .tcSetfpb (slotField w) (w.extractLsb' 0 6)⟩,
  ⟨"TC.CLRFPB", .s, 0x11000000, 0xFF0FFFFF, noBurst, fun w _ => .tcClrfpb (slotField w)⟩,
  ⟨"TC.GETFPB", .s, 0x12000000, 0xFF0FFFFF, noBurst, fun w _ => .tcGetfpb (slotField w)⟩,
  ⟨"TC.SETLP", .si, 0x13000000, 0xFF0FFF00, fun w => (w.extractLsb' 0 8).toNat, fun w b => .tcSetlp (slotField w) b⟩,
  ⟨"TC.GETLP", .si, 0x14000000, 0xFF0FFF00, noBurst, fun w _ => .tcGetlp (slotField w) (w.extractLsb' 0 8)⟩,
  ⟨"TC.CLRLP", .s, 0x15000000, 0xFF0FFFFF, noBurst, fun w _ => .tcClrlp (slotField w)⟩,
  ⟨"TC.CALCCHK", .s, 0x16000000, 0xFF0FFFFF, noBurst, fun w _ => .tcCalcchk (slotField w)⟩,
  ⟨"TC.UPDCHK", .s, 0x17000000, 0xFF0FFFFF, noBurst, fun w _ => .tcUpdchk (slotField w)⟩,
  ⟨"TC.VALIDATE", .s, 0x18000000, 0xFF0FFFFF, noBurst, fun w _ => .tcValidate (slotField w)⟩,
  ⟨"TC.COPY", .ss, 0x19000000, 0xFF00FFFF, noBurst, fun w _ => .tcCopy (slotField w) (sourceField w)⟩,
  ⟨"TC.COPYHDR", .ss, 0x1A000000, 0xFF00FFFF, noBurst, fun w _ => .tcCopyhdr (slotField w) (sourceField w)⟩,
  ⟨"TC.TLEN", .s, 0x1B000000, 0xFF0FFFFF, noBurst, fun w _ => .tcTlen (slotField w)⟩,
  ⟨"TC.RDBYTE", .si, 0x1C000000, 0xFF0FFFE0, noBurst, fun w _ => .tcRdbyte (slotField w) (w.extractLsb' 0 5)⟩,
  ⟨"TC.WRBYTE", .si, 0x1D000000, 0xFF0FE000, noBurst, fun w _ => .tcWrbyte (slotField w) (w.extractLsb' 8 5) (w.extractLsb' 0 8)⟩]

/-- R70, the rows of spec/43_action_queue.md. -/
def queueRows : List Row := [
  ⟨"AQ.APPEND", .q, 0x40000000, 0xFF0C0000, fun w => (slotField w).toNat, fun w b => .aqAppend (w.extractLsb' 16 2) (w.extractLsb' 8 8) (w.extractLsb' 0 8) b⟩,
  ⟨"AQ.POP", .n, 0x41000000, 0xFFFFFFFF, noBurst, fun _ _ => .aqPop⟩,
  ⟨"AQ.LOST", .n, 0x42000000, 0xFFFFFFFF, noBurst, fun _ _ => .aqLost⟩]

/-- R70, the rows of spec/44_address_index.md. -/
def indexRows : List Row := [
  ⟨"AI.BUILD", .i, 0x50000000, 0xFFFFFF00, fun w => 3 * (w.extractLsb' 0 8).toNat, fun _ b => .aiBuild (descriptorsOf b)⟩,
  ⟨"AI.LOOKUP", .i, 0x51000000, 0xFFFF0000, noBurst, fun w _ => .aiLookup (w.extractLsb' 0 16)⟩]

/-- R70's table, 35 rows in its order. -/
def opcodeTable : List Row := headerRows ++ (payloadRows ++ (queueRows ++ indexRows))

/-- R70: the test of one row. -/
def Row.Matches (r : Row) (w : Word) : Bool := w &&& r.mask == r.pattern

/-- R70: the row a word matches, if any. -/
def rowOf (w : Word) : Option Row := opcodeTable.find? (fun r => r.Matches w)

/-- R71: is the word's opcode one of the 35? -/
def knownOpcode (w : Word) : Bool := opcodeTable.any (fun r => opField w == opField r.pattern)

/-- R74: how many burst bytes the word announces; none for an illegal word. -/
def announcedBurst (w : Word) : Nat :=
  match rowOf w with
  | some r => r.burstLen w
  | none => 0

/-- R70 to R72, R74: the command a whole transaction is.  The burst length is checked for illegal words too (R246). -/
def decode (w : Word) (burst : List Byte) : Except DecodeError Instr :=
  if burst.length = announcedBurst w then
    match rowOf w with
    | some r => .ok (r.assemble w burst)
    | none => .error (if knownOpcode w then .reservedBits else .unknownOpcode)
  else .error .burstLength

/-- The instruction the decoder reads from a transaction laid out as one number: bits 31:0 are the command word, and the
burst's byte k is at bit 32 + 8 k; every bit from `nbits` up is zero (R61, R63). -/
def tableBurst (nbits w : Nat) : List Byte :=
  let v := w % 2 ^ nbits
  (List.range (announcedBurst (BitVec.ofNat 32 v))).map fun k => BitVec.ofNat 8 (v >>> (32 + 8 * k))

/-- The command word of `tableBurst`'s layout. -/
def tableWord (nbits w : Nat) : Word := BitVec.ofNat 32 (w % 2 ^ nbits)

/-- The instruction the decoder reads from a transaction numbered as spec/opcode_table.json numbers it. -/
def decodeTableWord (nbits w : Nat) : Option Instr :=
  match decode (tableWord nbits w) (tableBurst nbits w) with
  | .ok i => some i
  | .error _ => none

/-! ## The encoder -/

/-- R61: a command word from its four fields, most significant first. -/
def pack (op : Byte) (f g : BitVec 4) (imm : Half) : Word := op ++ f ++ g ++ imm

/-- R70: the command word of an instruction.  The counts of TC.SETLP, AQ.APPEND and AI.BUILD are their bursts' lengths. -/
def encodeWord : Instr → Word
  | .tcClear f => pack 0x00 f 0 0
  | .tcSetpri f p => pack 0x01 f 0 (p.setWidth 16)
  | .tcGetpri f => pack 0x02 f 0 0
  | .tcSetrep f => pack 0x03 f 0 0
  | .tcSetsrc f a => pack 0x04 f 0 a
  | .tcGetsrc f => pack 0x05 f 0 0
  | .tcSetdst f a => pack 0x06 f 0 a
  | .tcGetdst f => pack 0x07 f 0 0
  | .tcSetmc f b => pack 0x08 f 0 (b.setWidth 16)
  | .tcIsmc f => pack 0x09 f 0 0
  | .tcSethop f h => pack 0x0A f 0 (h.setWidth 16)
  | .tcGethop f => pack 0x0B f 0 0
  | .tcSetlen f n => pack 0x0C f 0 (n.setWidth 16)
  | .tcGetlen f => pack 0x0D f 0 0
  | .tcSetcmd f c => pack 0x0E f 0 (c.setWidth 16)
  | .tcGetcmd f => pack 0x0F f 0 0
  | .tcSetfpb f v => pack 0x10 f 0 (v.setWidth 16)
  | .tcClrfpb f => pack 0x11 f 0 0
  | .tcGetfpb f => pack 0x12 f 0 0
  | .tcSetlp f data => pack 0x13 f 0 ((BitVec.ofNat 8 data.length).setWidth 16)
  | .tcGetlp f n => pack 0x14 f 0 (n.setWidth 16)
  | .tcClrlp f => pack 0x15 f 0 0
  | .tcCalcchk f => pack 0x16 f 0 0
  | .tcUpdchk f => pack 0x17 f 0 0
  | .tcValidate f => pack 0x18 f 0 0
  | .tcCopy f g => pack 0x19 f g 0
  | .tcCopyhdr f g => pack 0x1A f g 0
  | .tcTlen f => pack 0x1B f 0 0
  | .tcRdbyte f i => pack 0x1C f 0 (i.setWidth 16)
  | .tcWrbyte f i v => pack 0x1D f 0 (i.setWidth 8 ++ v)
  | .aqAppend kind index short data => pack 0x40 (BitVec.ofNat 4 data.length) (kind.setWidth 4) (index ++ short)
  | .aqPop => pack 0x41 0 0 0
  | .aqLost => pack 0x42 0 0 0
  | .aiBuild objs => pack 0x50 0 0 ((BitVec.ofNat 8 objs.length).setWidth 16)
  | .aiLookup a => pack 0x51 0 0 a

/-- R181: the three bytes of a descriptor. -/
def descriptorBytes (d : Descriptor) : List Byte := [d.addr.extractLsb' 8 8, d.addr.extractLsb' 0 8, d.flags]

/-- R63: the burst that follows the word; empty for 32 of the 35 commands. -/
def encodeBurst : Instr → List Byte
  | .tcSetlp _ data => data
  | .aqAppend _ _ _ data => data
  | .aiBuild objs => objs.flatMap descriptorBytes
  | .tcClear _ | .tcSetpri _ _ | .tcGetpri _ | .tcSetrep _ | .tcSetsrc _ _ | .tcGetsrc _ | .tcSetdst _ _ | .tcGetdst _
  | .tcSetmc _ _ | .tcIsmc _ | .tcSethop _ _ | .tcGethop _ | .tcSetlen _ _ | .tcGetlen _ | .tcSetcmd _ _ | .tcGetcmd _
  | .tcSetfpb _ _ | .tcClrfpb _ | .tcGetfpb _ | .tcGetlp _ _ | .tcClrlp _ | .tcCalcchk _ | .tcUpdchk _ | .tcValidate _
  | .tcCopy _ _ | .tcCopyhdr _ _ | .tcTlen _ | .tcRdbyte _ _ | .tcWrbyte _ _ _ | .aqPop | .aqLost | .aiLookup _ => []

/-- The transaction of an instruction: word and burst (R60). -/
def encode (i : Instr) : Word × List Byte := (encodeWord i, encodeBurst i)

end Sys2Proof
end

