-- ==== Sys2Proof/Machine/Fetch.lean ====
section
/-! DEFINITION. Taking the next event off the command port.  The block has no program counter and fetches nothing
(spec/10_state.md R30): what executes next is what the host presents next (R50). -/

namespace Sys2Proof.Machine

/-- What the port has for the step. -/
inductive Fetched where
  /-- the configuration is none of the block's (X3) -/
  | misconfigured
  /-- nothing is presented -/
  | idle
  /-- the reset input was pulsed; the state after it -/
  | resetTo (t : State)
  /-- a transaction; the state in which it executes, the port's head taken off -/
  | command (word : Word) (burst : List Byte) (t : State)

/-- R50: the host's events are taken one at a time, first first. -/
def fetch (s : State) : Fetched :=
  if s.cfg.wf then
    match s.input with
    | [] => .idle
    | .command w b :: rest => .command w b { s with input := rest }
    | .reset :: rest => .resetTo { s with input := rest }.afterReset
  else .misconfigured

/-- R71, R72: the answer to an illegal word, and no answer to a transaction that is none (R63). -/
def rejectTransaction (e : DecodeError) (s : State) : Host.Outcome State Fault Refusal :=
  match e with
  | .unknownOpcode => answerStatus s .errIllegal
  | .reservedBits => answerStatus s .errIllegal
  | .burstLength => .refused .burstLength

end Sys2Proof.Machine
end

