-- ==== Sys2Proof/Machine/Step.lean ====
section
/-! DEFINITION. One step: the next event of the port, and for a command its whole execution (spec/20_memory.md R50). -/

namespace Sys2Proof.Machine

/-- Idle, the block holds its state (R216).  A reset pulse gives the reset state (R230).  A transaction is decoded and
executed; an illegal word answers ERR_ILLEGAL. -/
def step (s : State) : Host.Outcome State Fault Refusal :=
  match fetch s with
  | .misconfigured => .refused .notAConfiguration
  | .idle => .next s
  | .resetTo t => .next t
  | .command w b t =>
    match decode w b with
    | .ok i => exec i t
    | .error e => rejectTransaction e t

/-- The transaction an opcode-table word stands for, presented next on the port (notes/assumptions/1.md): `step` executes
exactly it. -/
def State.withFetchWord (s : State) (nbits w : Nat) : State :=
  { s with input := .command (tableWord nbits w) (tableBurst nbits w) :: s.input }

end Sys2Proof.Machine
end

