-- ==== Sys2Proof/Machine/Pseudo.lean ====
section
/-! DEFINITION. The pseudo-commands of spec/30_encoding.md R76, each expanding to real commands. -/

namespace Sys2Proof.Machine

/-- R76.  TC.DUMP first asks TC.TLEN; `len` is what that answered, since the host chooses what follows (R6). -/
inductive Pseudo where
  | read (f : Slot)
  | response (f : Slot)
  | write (f : Slot)
  | memwrite (f : Slot)
  | load (f : Slot) (bytes : List Byte)
  | dump (f : Slot) (len : Nat)
  | dumpAll (f : Slot)
deriving DecidableEq, Repr

/-- Write bytes at offsets k, k + 1, … of slot f. -/
def loadFrom (f : Slot) (k : Nat) : List Byte → List Instr
  | [] => []
  | b :: bs => .tcWrbyte f (BitVec.ofNat 5 k) b :: loadFrom f (k + 1) bs

/-- Read offsets 0 to n - 1 of slot f. -/
def readAll (f : Slot) (n : Nat) : List Instr := (List.range n).map fun i => .tcRdbyte f (BitVec.ofNat 5 i)

/-- R76: the expansions. -/
def Pseudo.expand : Pseudo → List Instr
  | .read f => [.tcSetcmd f 0]
  | .response f => [.tcSetcmd f 1]
  | .write f => [.tcSetcmd f 2]
  | .memwrite f => [.tcSetcmd f 10]
  | .load f bytes => loadFrom f 0 bytes
  | .dump f len => .tcTlen f :: readAll f len
  | .dumpAll f => readAll f 23

end Sys2Proof.Machine
end

