-- ==== Sys2Proof/Machine/Ring.lean ====
section
/-! DEFINITION. The circular buffer that realises the queue (spec/10_state.md R27, spec/43_action_queue.md R166).  The step
does not use it: State holds Q as a list, which is the normative state (R25).  It is here so that the realisation's index
arithmetic can be stated to refine the list. -/

namespace Sys2Proof.Machine

/-- R27: storage `buf[0..N-1]`, a head index and a count. -/
structure Ring where
  buf : List Entry
  hd  : Nat
  cnt : Nat
deriving DecidableEq, Repr

/-- N is the length of the storage; the head index is in 0..N-1 and the count in 0..N (R27). -/
abbrev Ring.wf (r : Ring) : Prop := r.hd < r.buf.length ∧ r.cnt ≤ r.buf.length

/-- R27: `Q = [buf[hd], buf[(hd+1) mod N], ..., buf[(hd+cnt-1) mod N]]`. -/
def Ring.entries (r : Ring) : List Entry :=
  (List.range r.cnt).filterMap fun k => r.buf[(r.hd + k) % r.buf.length]?

/-- R166: insert at `(hd + cnt) mod N`; on eviction the head moves on and the count stays, else the count grows. -/
def Ring.append (r : Ring) (e : Entry) : Ring :=
  let buf := r.buf.set ((r.hd + r.cnt) % r.buf.length) e
  if r.cnt = r.buf.length then ⟨buf, (r.hd + 1) % r.buf.length, r.cnt⟩ else ⟨buf, r.hd, r.cnt + 1⟩

/-- R166: on a pop the head moves on and the count shrinks. -/
def Ring.pop (r : Ring) : Ring := ⟨r.buf, (r.hd + 1) % r.buf.length, r.cnt - 1⟩

end Sys2Proof.Machine
end

