-- ==== Sys2Proof/Safety.lean ====
section
/-! DEFINITION. The terms claims are stated in: the invariant of the block, what a command leaves alone, and the complete list
of operand errors. -/

namespace Sys2Proof.Machine

/-- R64, R65: what every response looks like.  One with a status other than OK carries nothing; bits 19:18 of the word are
zero; a burst is at most 14 bytes (R66). -/
def Response.Fits (c : Config) (r : Response) : Prop :=
  (r.status ≠ .ok → r = bare r.status) ∧ r.aux.extractLsb' 2 2 = 0 ∧ r.burst.length ≤ c.longMax

/-- The invariant of the block: a configuration of R5, frame space in canonical form and inside NFRAMES slots, the queue
within its capacity with well-formed entries (R25, R160, R162), the table strictly ascending with at most 255 pairs (R29,
R180), and a well-formed response on the port. -/
structure Inv (s : State) : Prop where
  config       : s.cfg.wf
  framesWf     : Memory.wf s.cfg s.frames
  framesIn     : ∀ c ∈ s.frames, c.1 < s.cfg.nframes * s.cfg.frameBytes
  queueFits    : s.queue.length ≤ s.cfg.aqCapacity
  entriesFit   : ∀ e ∈ s.queue, e.data.length ≤ s.cfg.longMax
  tableSorted  : s.table.Pairwise fun p q => p.addr < q.addr
  tableFits    : s.table.length ≤ s.cfg.aiMaxObjects
  responseFits : ∀ r, s.response = some r → r.Fits s.cfg

/-- From s to t the command stored the run of bytes `bs` at offsets `lo`, `lo + 1`, … of slot f, left every other byte of
frame space alone, changed nothing else of the state, and answered a bare OK. -/
structure StoredRun (s t : State) (f lo : Nat) (bs : List Byte) : Prop where
  stored    : ∀ k, ∀ h : k < bs.length, t.byte f (lo + k) = bs[k]
  elsewhere : ∀ a, (∀ k < bs.length, a ≠ frameAddr s.cfg f (lo + k)) → t.read a = s.read a
  cfg       : t.cfg = s.cfg
  queue     : t.queue = s.queue
  lost      : t.lost = s.lost
  table     : t.table = s.table
  input     : t.input = s.input
  answered  : t.response = some ⟨.ok, 0, 0, []⟩

/-- R203: the complete list of the causes of ERR_ARG, for each command. -/
def ErrArgCause (c : Config) : Instr → Prop
  | .tcClear f | .tcSetpri f _ | .tcGetpri f | .tcSetrep f | .tcSetsrc f _ | .tcGetsrc f | .tcSetdst f _ | .tcGetdst f
  | .tcSetmc f _ | .tcIsmc f | .tcSethop f _ | .tcGethop f | .tcGetlen f | .tcSetcmd f _ | .tcGetcmd f | .tcSetfpb f _
  | .tcClrfpb f | .tcGetfpb f | .tcSetlp f _ | .tcGetlp f _ | .tcClrlp f | .tcCalcchk f | .tcUpdchk f | .tcValidate f
  | .tcTlen f => c.nframes ≤ f.toNat
  | .tcCopy f g | .tcCopyhdr f g => c.nframes ≤ f.toNat ∨ c.nframes ≤ g.toNat
  | .tcSetlen f n => c.nframes ≤ f.toNat ∨ n = 0
  | .tcRdbyte f i | .tcWrbyte f i _ => c.nframes ≤ f.toNat ∨ 23 ≤ i.toNat
  | .aqAppend kind _ _ data => kind = 3 ∨ 15 ≤ data.length
  | .aqPop | .aqLost | .aiBuild _ | .aiLookup _ => False

/-- R100 (b): the TC commands. -/
def IsTc : Instr → Prop
  | .aqAppend _ _ _ _ | .aqPop | .aqLost | .aiBuild _ | .aiLookup _ => False
  | .tcClear _ | .tcSetpri _ _ | .tcGetpri _ | .tcSetrep _ | .tcSetsrc _ _ | .tcGetsrc _ | .tcSetdst _ _ | .tcGetdst _
  | .tcSetmc _ _ | .tcIsmc _ | .tcSethop _ _ | .tcGethop _ | .tcSetlen _ _ | .tcGetlen _ | .tcSetcmd _ _ | .tcGetcmd _
  | .tcSetfpb _ _ | .tcClrfpb _ | .tcGetfpb _ | .tcSetlp _ _ | .tcGetlp _ _ | .tcClrlp _ | .tcCalcchk _ | .tcUpdchk _
  | .tcValidate _ | .tcCopy _ _ | .tcCopyhdr _ _ | .tcTlen _ | .tcRdbyte _ _ | .tcWrbyte _ _ _ => True

/-- R160: the AQ commands. -/
def IsAq (i : Instr) : Prop := (∃ k x v d, i = .aqAppend k x v d) ∨ i = .aqPop ∨ i = .aqLost

/-- R180: the AI commands. -/
def IsAi (i : Instr) : Prop := (∃ o, i = .aiBuild o) ∨ ∃ a, i = .aiLookup a

/-- R48, R49: the commands that only read. -/
def IsGetter : Instr → Prop
  | .tcGetpri _ | .tcGetsrc _ | .tcGetdst _ | .tcIsmc _ | .tcGethop _ | .tcGetlen _ | .tcGetcmd _ | .tcGetfpb _
  | .tcGetlp _ _ | .tcCalcchk _ | .tcValidate _ | .tcTlen _ | .tcRdbyte _ _ | .aqLost | .aiLookup _ => True
  | .tcClear _ | .tcSetpri _ _ | .tcSetrep _ | .tcSetsrc _ _ | .tcSetdst _ _ | .tcSetmc _ _ | .tcSethop _ _
  | .tcSetlen _ _ | .tcSetcmd _ _ | .tcSetfpb _ _ | .tcClrfpb _ | .tcSetlp _ _ | .tcClrlp _ | .tcUpdchk _ | .tcCopy _ _
  | .tcCopyhdr _ _ | .tcWrbyte _ _ _ | .aqAppend _ _ _ _ | .aqPop | .aiBuild _ => False

/-- The commands executed one after another, each on the state the one before left (R50); it stops where one does not
answer. -/
def execAll : List Instr → State → Host.Outcome State Fault Refusal
  | [], s => .next s
  | i :: is, s =>
    match exec i s with
    | .next t => execAll is t
    | .fault r => .fault r
    | .refused r => .refused r

/-- R183: i is the least index whose object is flagged and carries address a. -/
def LeastFlagged (objs : List Descriptor) (a : Half) (i : Nat) : Prop :=
  (∃ h : i < objs.length, objs[i].flags.getLsbD 0 = true ∧ objs[i].addr = a) ∧
    ∀ j, ∀ h : j < objs.length, objs[j].flags.getLsbD 0 = true → objs[j].addr = a → i ≤ j

end Sys2Proof.Machine
end

