-- ==== Sys2Proof/Certificates/Slice0/Obligations.lean ====
section
/-! DEFINITION. The statements for the provers, from the numbered rules of spec/.  A clause `encode i = (word, burst)` says the
rule's "Encoding" line; `⟨.errArg, 0, 0, []⟩` is `respond(ERR_ARG)` and `⟨.ok, 0, 0, []⟩` is `respond(OK)`, written out. -/

open Sys2Proof Sys2Proof.Machine

/-! ## Encoding -/

/-- Decoding what an instruction encodes to gives it back, every operand at every value, every burst whole. -/
def Obligations.DecodeOfEncodeGivesInstructionBack : Prop :=
  ∀ i : Instr, i.WellFormed → decode (encodeWord i) (encodeBurst i) = .ok i

/-- The other direction: each transaction has one meaning, and no bit of it is dropped. -/
def Obligations.EncodeOfDecodeGivesTransactionBack : Prop :=
  ∀ (w : Word) (b : List Byte) (i : Instr), decode w b = .ok i → encode i = (w, b) ∧ i.WellFormed

/-- R70's table as the spec writes it: mnemonic, format, match, mask. -/
def Sys2Proof.Machine.rowsOfR70 : List (String × Format × Word × Word) := [
  ("TC.CLEAR", .s, 0x00000000, 0xFF0FFFFF),
  ("TC.SETPRI", .si, 0x01000000, 0xFF0FFFFC),
  ("TC.GETPRI", .s, 0x02000000, 0xFF0FFFFF),
  ("TC.SETREP", .s, 0x03000000, 0xFF0FFFFF),
  ("TC.SETSRC", .si, 0x04000000, 0xFF0F0000),
  ("TC.GETSRC", .s, 0x05000000, 0xFF0FFFFF),
  ("TC.SETDST", .si, 0x06000000, 0xFF0F0000),
  ("TC.GETDST", .s, 0x07000000, 0xFF0FFFFF),
  ("TC.SETMC", .si, 0x08000000, 0xFF0FFFFE),
  ("TC.ISMC", .s, 0x09000000, 0xFF0FFFFF),
  ("TC.SETHOP", .si, 0x0A000000, 0xFF0FFFF8),
  ("TC.GETHOP", .s, 0x0B000000, 0xFF0FFFFF),
  ("TC.SETLEN", .si, 0x0C000000, 0xFF0FFFF0),
  ("TC.GETLEN", .s, 0x0D000000, 0xFF0FFFFF),
  ("TC.SETCMD", .si, 0x0E000000, 0xFF0FFFF0),
  ("TC.GETCMD", .s, 0x0F000000, 0xFF0FFFFF),
  ("TC.SETFPB", .si, 0x10000000, 0xFF0FFFC0),
  ("TC.CLRFPB", .s, 0x11000000, 0xFF0FFFFF),
  ("TC.GETFPB", .s, 0x12000000, 0xFF0FFFFF),
  ("TC.SETLP", .si, 0x13000000, 0xFF0FFF00),
  ("TC.GETLP", .si, 0x14000000, 0xFF0FFF00),
  ("TC.CLRLP", .s, 0x15000000, 0xFF0FFFFF),
  ("TC.CALCCHK", .s, 0x16000000, 0xFF0FFFFF),
  ("TC.UPDCHK", .s, 0x17000000, 0xFF0FFFFF),
  ("TC.VALIDATE", .s, 0x18000000, 0xFF0FFFFF),
  ("TC.COPY", .ss, 0x19000000, 0xFF00FFFF),
  ("TC.COPYHDR", .ss, 0x1A000000, 0xFF00FFFF),
  ("TC.TLEN", .s, 0x1B000000, 0xFF0FFFFF),
  ("TC.RDBYTE", .si, 0x1C000000, 0xFF0FFFE0),
  ("TC.WRBYTE", .si, 0x1D000000, 0xFF0FE000),
  ("AQ.APPEND", .q, 0x40000000, 0xFF0C0000),
  ("AQ.POP", .n, 0x41000000, 0xFFFFFFFF),
  ("AQ.LOST", .n, 0x42000000, 0xFFFFFFFF),
  ("AI.BUILD", .i, 0x50000000, 0xFFFFFF00),
  ("AI.LOOKUP", .i, 0x51000000, 0xFFFF0000)]

/-- R70: the table as the spec writes it; a word is a command exactly when it matches that command's row; at most one row
matches any word. -/
def Obligations.DecodeFollowsOpcodeTable : Prop :=
  (opcodeTable.map fun r => (r.mnemonic, r.format, r.pattern, r.mask)) = rowsOfR70 ∧
  (∀ w, ∀ r ∈ opcodeTable, ∀ b, b.length = announcedBurst w →
    ((∃ i, decode w b = .ok i ∧ i.mnemonic = r.mnemonic) ↔ w &&& r.mask = r.pattern)) ∧
  (∀ w, ∀ r ∈ opcodeTable, ∀ r' ∈ opcodeTable,
    w &&& r.mask = r.pattern → w &&& r'.mask = r'.pattern → r.mnemonic = r'.mnemonic)

/-- R78, which the spec derives from R70 to R74: every transaction of the announced length is one of the commands or illegal;
a command answers exactly one response on every state. -/
def Obligations.DecodingIsTotal : Prop :=
  ∀ (w : Word) (b : List Byte), b.length = announcedBurst w →
    (∃ i, decode w b = .ok i ∧ i.WellFormed ∧
      ∀ s, ∃ t r, exec i s = .next t ∧ t.response = some r) ∨
    (b = [] ∧ (∀ r ∈ opcodeTable, w &&& r.mask ≠ r.pattern) ∧
      (decode w b = .error .unknownOpcode ∨ decode w b = .error .reservedBits))

/-- R74: the burst length is this function of the word alone. -/
def Obligations.BurstLengthIsOfWordAlone : Prop :=
  ∀ w : Word, announcedBurst w =
    if w &&& 0xFF0FFF00 = 0x13000000 then (w.extractLsb' 0 8).toNat
    else if w &&& 0xFF0C0000 = 0x40000000 then (w.extractLsb' 20 4).toNat
    else if w &&& 0xFFFFFF00 = 0x50000000 then 3 * (w.extractLsb' 0 8).toNat
    else 0

/-- A few words written out by the spec, one per format and per burst, decode to what it says: those of
95_test_vectors.md section 2.9, TC.SETLP's of its section 2.2 (burst by R63), and the AI.BUILD of 44_address_index.md R182
(descriptor layout R181). -/
def Obligations.WordsOfTheSpecDecode : Prop :=
  decode 0x0D100000 [] = .ok (.tcGetlen 1) ∧
  decode 0x04001203 [] = .ok (.tcSetsrc 0 0x1203) ∧
  decode 0x1D100560 [] = .ok (.tcWrbyte 1 5 0x60) ∧
  decode 0x1A100000 [] = .ok (.tcCopyhdr 1 0) ∧
  decode 0x51000901 [] = .ok (.aiLookup 0x0901) ∧
  decode 0x40220700 [0x0C, 0x1A] = .ok (.aqAppend 2 7 0 [0x0C, 0x1A]) ∧
  decode 0x41000000 [] = .ok .aqPop ∧
  decode 0x13000002 [0x0C, 0x1A] = .ok (.tcSetlp 0 [0x0C, 0x1A]) ∧
  decode 0x50000003 [0x09, 0x01, 0x01, 0x0A, 0x00, 0x00, 0x08, 0x02, 0x01] =
    .ok (.aiBuild [⟨0x0901, 1⟩, ⟨0x0A00, 0⟩, ⟨0x0802, 1⟩])

/-! ## The step -/

/-- When the next event is a transaction that decodes to i, the step is exec of i on the state with the event taken off. -/
def Obligations.StepRunsDecodedCommand : Prop :=
  ∀ (s : State) (w : Word) (b : List Byte) (rest : List PortEvent) (i : Instr),
    s.cfg.wf → s.input = .command w b :: rest → decode w b = .ok i → step s = exec i { s with input := rest }

/-- R71, R72: an unknown opcode, or a known one with a reserved bit set, takes no burst, changes no state and answers
ERR_ILLEGAL. -/
def Obligations.IllegalWordAnswersErrIllegal : Prop :=
  (∀ (s : State) (w : Word) (rest : List PortEvent), s.cfg.wf → s.input = .command w [] :: rest →
    let op := (w.extractLsb' 24 8).toNat
    (0x1E ≤ op ∧ op ≤ 0x3F) ∨ (0x43 ≤ op ∧ op ≤ 0x4F) ∨ 0x52 ≤ op →
    step s = .next { s with input := rest, response := some ⟨.errIllegal, 0, 0, []⟩ }) ∧
  (∀ (s : State) (w : Word) (rest : List PortEvent), s.cfg.wf → s.input = .command w [] :: rest →
    ∀ r ∈ opcodeTable, w.extractLsb' 24 8 = r.pattern.extractLsb' 24 8 → w &&& r.mask ≠ r.pattern →
    step s = .next { s with input := rest, response := some ⟨.errIllegal, 0, 0, []⟩ })

/-- A transaction whose burst is not of the announced length is no command: the step refuses it, as R63 and
93_implementation_defined.md X1 ask of a model (notes/assumptions/5.md, DEDUCED).  Every step of a block that is no configuration
is refused: X3 asks this of NFRAMES and AQ_CAPACITY; that it holds of another value of a parameter R5 fixes, and of a step without
a command, is the model's own choice (notes/assumptions/4.md, DEDUCED). -/
def Obligations.MalformedTransactionIsRefused : Prop :=
  (∀ (s : State) (w : Word) (b : List Byte) (rest : List PortEvent), s.cfg.wf → s.input = .command w b :: rest →
    b.length ≠ announcedBurst w → step s = .refused .burstLength) ∧
  (∀ s : State, ¬ s.cfg.wf → step s = .refused .notAConfiguration)

/-- Whole machine (R200): in a block of R5's configurations every step gives a next state, the idle and the reset step among
them, unless the head of the port is a transaction whose burst is not of the announced length; a transaction of that length is
answered with a response, taken off the port, and leaves the configuration.  The model's own are the idle step (R216 says only
that nothing changes without a command; notes/assumptions/7.md, DESIGN CHOICE), reset as one event of the port (R230 gives the
state after it; notes/assumptions/6.md, DESIGN CHOICE), and the clause that no step faults, which holds of any step, since the
type Fault is empty (notes/assumptions/15.md, DEDUCED from R200). -/
def Obligations.EveryTransactionIsAnswered : Prop :=
  (∀ (s : State) (r : Fault), step s ≠ .fault r) ∧
  (∀ s : State, s.cfg.wf → (∃ t, step s = .next t) ∨
    ∃ w b rest, s.input = .command w b :: rest ∧ b.length ≠ announcedBurst w) ∧
  (∀ (s : State) (w : Word) (b : List Byte) (rest : List PortEvent), s.cfg.wf → s.input = .command w b :: rest →
    b.length = announcedBurst w →
    ∃ t r, step s = .next t ∧ t.response = some r ∧ t.input = rest ∧ t.cfg = s.cfg)

/-- Idle, the block holds its state (R216); the step of an idle port is the model's own (notes/assumptions/7.md, DESIGN CHOICE).
Reset gives the reset state from any state (R230) and leaves the configuration (R231); that it is one event of the port, that
no response stands afterwards, and that the host's further events are kept is the model's choice (notes/assumptions/6.md,
DESIGN CHOICE). -/
def Obligations.IdleHoldsAndResetPulseRestores : Prop :=
  (∀ s : State, s.cfg.wf → s.input = [] → step s = .next s) ∧
  (∀ (s : State) (rest : List PortEvent), s.cfg.wf → s.input = .reset :: rest →
    step s = .next { State.init s.cfg with input := rest })

/-! ## Reset -/

/-- R33: the state after reset, of every configuration of the block, and that every slot then equals the result of TC.CLEAR on
it. -/
def Obligations.ResetStateIsTheDefaults : Prop :=
  (∀ c : Config, c.wf → ∀ f < c.nframes,
    (State.init c).byte f 0 = 0xBC ∧ (State.init c).byte f 5 = 0xE1 ∧
    ∀ i < 23, i ≠ 0 → i ≠ 5 → (State.init c).byte f i = 0x00) ∧
  (∀ c : Config, (State.init c).queue = [] ∧ (State.init c).lost = 0 ∧ (State.init c).table = []) ∧
  (∀ (c : Config) (f : Slot), f.toNat < c.nframes →
    ∃ t, exec (.tcClear f) (State.init c) = .next t ∧ t.frames = (State.init c).frames)

/-- R232, which the spec derives from R33 and the command rules: what each command answers immediately after reset.
TC.VALIDATE's answer is that of a block with the masks and values R5 gives checks 1, 2 and 4, which may be re-pointed (R145,
notes/assumptions/12.md) and rest on general knowledge (notes/assumptions/13.md, PRESUMED). -/
def Obligations.AnswersRightAfterReset : Prop :=
  ∀ (c : Config) (f : Slot), c.wf → f.toNat < c.nframes →
    let s := State.init c
    let ok (v : Half) : Host.Outcome State Fault Refusal := .next { s with response := some ⟨.ok, 0, v, []⟩ }
    exec (.tcGetpri f) s = ok 3 ∧ exec (.tcGetsrc f) s = ok 0 ∧ exec (.tcGetdst f) s = ok 0 ∧
    exec (.tcIsmc f) s = ok 1 ∧ exec (.tcGethop f) s = ok 6 ∧ exec (.tcGetlen f) s = ok 1 ∧
    exec (.tcGetcmd f) s = ok 0 ∧ exec (.tcGetfpb f) s = ok 0 ∧
    exec (.tcGetlp f 14) s = .next { s with response := some ⟨.ok, 0, 0, List.replicate 14 0⟩ } ∧
    exec (.tcTlen f) s = ok 9 ∧ exec (.tcCalcchk f) s = ok 0xA2 ∧
    (c.ctrlPatternMask = 0x13 → c.ctrlPatternValue = 0x10 → c.ctrlFormatMask = 0xC0 → c.ctrlFormatStandard = 0x80 →
      c.cmdPatternMask = 0xC0 → c.cmdPatternValue = 0x00 → exec (.tcValidate f) s = ok 5) ∧
    exec (.tcRdbyte f 0) s = ok 0xBC ∧ exec (.tcRdbyte f 5) s = ok 0xE1 ∧
    (∀ i : BitVec 5, i.toNat ≤ 22 → i ≠ 0 → i ≠ 5 → exec (.tcRdbyte f i) s = ok 0) ∧
    exec .aqPop s = .next { s with response := some ⟨.empty, 0, 0, []⟩ } ∧ exec .aqLost s = ok 0 ∧
    ∀ a, exec (.aiLookup a) s = .next { s with response := some ⟨.notFound, 0, 0, []⟩ }

/-- The invariant holds after reset of every configuration of the block, so also at State.reset. -/
def Obligations.ResetMeetsInvariant : Prop :=
  (∀ c : Config, c.wf → Inv (State.init c)) ∧ Inv State.reset

/-! ## Whole-machine rules -/

/-- Every step keeps the invariant, from every state that meets it, whatever the host presents. -/
def Obligations.StepKeepsInvariant : Prop :=
  ∀ s t : State, Inv s → step s = .next t → Inv t

/-- R65: the status codes, who produces each, and that a response with a status other than OK is bare and its command changed
no state. -/
def Obligations.StatusesAndTheirProducers : Prop :=
  (statusCode .ok = 0 ∧ statusCode .empty = 1 ∧ statusCode .notFound = 2 ∧ statusCode .errIllegal = 8 ∧
    statusCode .errArg = 9) ∧
  (∀ st : Status, (statusCode st).getLsbD 3 = true ↔ st = .errIllegal ∨ st = .errArg) ∧
  (∀ (i : Instr) (s t : State), exec i s = .next t → ∃ r, t.response = some r ∧
    (r.status ≠ .ok → t = { s with response := some ⟨r.status, 0, 0, []⟩ }) ∧
    r.status ≠ .errIllegal ∧ (r.status = .empty → i = .aqPop) ∧ (r.status = .notFound → ∃ a, i = .aiLookup a) ∧
    (s.cfg.wf → r.status = .errArg → ErrArgCause s.cfg i)) ∧
  (∀ (s t : State) (w : Word) (b : List Byte) (rest : List PortEvent), s.input = .command w b :: rest →
    step s = .next t → t.response = some ⟨.errIllegal, 0, 0, []⟩ → ∀ i, decode w b ≠ .ok i)

/-- R203: ERR_ARG answers exactly the listed causes, with no state change, and the burst the word announced is taken with
the transaction and dropped. -/
def Obligations.ErrArgExactlyOnItsCauses : Prop :=
  (∀ (i : Instr) (s : State), s.cfg.wf → ErrArgCause s.cfg i →
    exec i s = .next { s with response := some ⟨.errArg, 0, 0, []⟩ }) ∧
  (∀ (i : Instr) (s t : State) (r : Response), s.cfg.wf → ¬ ErrArgCause s.cfg i → exec i s = .next t →
    t.response = some r → r.status ≠ .errArg) ∧
  (∀ (i : Instr) (s : State) (w : Word) (b : List Byte) (rest : List PortEvent), s.cfg.wf →
    s.input = .command w b :: rest → decode w b = .ok i → ErrArgCause s.cfg i →
    step s = .next { s with input := rest, response := some ⟨.errArg, 0, 0, []⟩ })

/-- The three units share no state (10_state.md, R160, R180): what a command of one unit leaves alone of the others.  No
command touches the configuration (R231) or the port's waiting events. -/
def Obligations.UnitsShareNoState : Prop :=
  ∀ (i : Instr) (s t : State), exec i s = .next t →
    t.cfg = s.cfg ∧ t.input = s.input ∧
    (IsTc i → t.queue = s.queue ∧ t.lost = s.lost ∧ t.table = s.table) ∧
    (IsAq i → t.frames = s.frames ∧ t.table = s.table) ∧
    (IsAi i → t.frames = s.frames ∧ t.queue = s.queue ∧ t.lost = s.lost)

/-- A unit's commands depend on that unit's state alone: two states that agree on it get the same response and the same new
state of the unit, whatever the rest of the two states holds. -/
def Obligations.UnitsLearnNothingOfOthers : Prop :=
  ∀ (i : Instr) (s s' t t' : State), s.cfg = s'.cfg → exec i s = .next t → exec i s' = .next t' →
    (IsTc i → s.frames = s'.frames → t.frames = t'.frames ∧ t.response = t'.response) ∧
    (IsAq i → s.queue = s'.queue → s.lost = s'.lost →
      t.queue = t'.queue ∧ t.lost = t'.lost ∧ t.response = t'.response) ∧
    (IsAi i → s.table = s'.table → t.table = t'.table ∧ t.response = t'.response)

/-- Reads have no side effect and may be repeated with the same response (R48): a reading command changes nothing but the
response on the port, and executed again it gives the same state. -/
def Obligations.ReadsHaveNoSideEffect : Prop :=
  ∀ (i : Instr) (s : State), IsGetter i → ∃ r, exec i s = .next { s with response := some r } ∧
    exec i { s with response := some r } = .next { s with response := some r }

/-- Slots do not alias (R20, R100 (b)): whatever a TC command does, it does to the one slot it names as its destination. -/
def Obligations.TcWritesOnlyItsSlot : Prop :=
  ∀ (i : Instr) (s t : State) (f : Slot), s.cfg.wf → IsTc i → (encodeWord i).extractLsb' 20 4 = f → exec i s = .next t →
    ∀ a, ¬ (f.toNat * 23 ≤ a ∧ a < f.toNat * 23 + 23) → t.read a = s.read a

/-- R64: the layout of the response word; what a pop's fields carry; the low 24 bits of a pop's response equal those of the
append's command word. -/
def Obligations.ResponseWordLayout : Prop :=
  (∀ r : Response, r.word.extractLsb' 28 4 = statusCode r.status ∧ r.word.extractLsb' 24 4 = 0 ∧
    r.word.extractLsb' 16 8 = r.aux ∧ r.word.extractLsb' 0 16 = r.value) ∧
  (∀ (i : Instr) (s t : State) (r : Response), exec i s = .next t → t.response = some r →
    (r.aux = 0 ∨ i = .aqPop ∧ r.status = .ok) ∧ (r.status ≠ .ok → r.value = 0) ∧ (¬ IsGetter i → i ≠ .aqPop → r.value = 0)) ∧
  (∀ (s : State) (e : Entry) (q : List Entry), s.queue = e :: q → e.data.length ≤ 14 →
    ∃ t r, exec .aqPop s = .next t ∧ t.response = some r ∧ r.status = .ok ∧
      (r.word.extractLsb' 20 4).toNat = e.data.length ∧ r.word.extractLsb' 18 2 = 0 ∧
      r.word.extractLsb' 16 2 = kindCode e.kind ∧ r.word.extractLsb' 8 8 = e.index ∧ r.word.extractLsb' 0 8 = e.short ∧
      r.word.extractLsb' 0 24 = (encodeWord (.aqAppend (kindCode e.kind) e.index e.short e.data)).extractLsb' 0 24) ∧
  (∀ (s : State) (kind : BitVec 2) (index short : Byte) (data : List Byte), s.cfg.wf → s.queue = [] → kind ≠ 3 →
    data.length ≤ 14 → ∃ t u r, exec (.aqAppend kind index short data) s = .next t ∧ exec .aqPop t = .next u ∧
      u.response = some r ∧
      r.word.extractLsb' 0 24 = (encodeWord (.aqAppend kind index short data)).extractLsb' 0 24 ∧ r.burst = data)

/-- R66: who answers with a burst, and which. -/
def Obligations.ResponseBursts : Prop :=
  (∀ (s : State) (f : Slot) (n : Byte), s.cfg.wf → f.toNat < s.cfg.nframes → ∃ t r, exec (.tcGetlp f n) s = .next t ∧
    t.response = some r ∧ r.status = .ok ∧ r.burst.length = min n.toNat 14 ∧
    ∀ k, ∀ h : k < r.burst.length, r.burst[k] = s.byte f.toNat (8 + k)) ∧
  (∀ (s : State) (e : Entry) (q : List Entry), s.queue = e :: q → ∃ t r, exec .aqPop s = .next t ∧
    t.response = some r ∧ r.status = .ok ∧ r.burst = e.data) ∧
  (∀ (i : Instr) (s t : State) (r : Response), exec i s = .next t → t.response = some r →
    (r.status ≠ .ok ∨ ((∀ f n, i ≠ .tcGetlp f n) ∧ i ≠ .aqPop)) → r.burst = [])

/-- R28: every evicting AQ.APPEND adds one to lost, which stops at 0xFFFF; no other command changes it, and only reset makes it
smaller. -/
def Obligations.LostCountsEvictionsOnly : Prop :=
  (∀ (s : State) (k : BitVec 2) (x v : Byte) (d : List Byte), s.cfg.wf → k ≠ 3 → d.length ≤ 14 →
    s.queue.length = s.cfg.aqCapacity →
    ∃ t, exec (.aqAppend k x v d) s = .next t ∧ t.lost.toNat = min (s.lost.toNat + 1) 0xFFFF) ∧
  (∀ (i : Instr) (s t : State), s.cfg.wf → exec i s = .next t → t.lost ≠ s.lost →
    (∃ k x v d, i = .aqAppend k x v d ∧ k ≠ 3 ∧ d.length ≤ 14) ∧ s.queue.length = s.cfg.aqCapacity ∧
      t.lost.toNat = min (s.lost.toNat + 1) 0xFFFF) ∧
  (∀ s t : State, step s = .next t → t.lost.toNat < s.lost.toNat → s.input.head? = some .reset ∧ t.lost = 0)

/-! ## TC: clear and header fields (40_tc_header_fields.md) -/

/-- R101.  The bytes the defaults do not name are zero by the spec's own choice D18, as the rule says. -/
def Obligations.ClearStoresDefaultFrame : Prop :=
  ∀ (s : State) (f : Slot), s.cfg.wf → encode (.tcClear f) = (pack 0x00 f 0 0, []) ∧
    (s.cfg.nframes ≤ f.toNat → exec (.tcClear f) s = .next { s with response := some ⟨.errArg, 0, 0, []⟩ }) ∧
    (f.toNat < s.cfg.nframes → ∃ t, exec (.tcClear f) s = .next t ∧ StoredRun s t f.toNat 0
      [0xBC, 0, 0, 0, 0, 0xE1, 0, 0, 0, 0, 0, 0, 0, 0, 0, 0, 0, 0, 0, 0, 0, 0, 0])

/-- R102, R104: the control byte's setters replace PRI, and clear the active-low repeat flag; every other bit stays.  The bit
positions rest on general knowledge (10_state.md R21, notes/assumptions/13.md). -/
def Obligations.ControlByteSetters : Prop :=
  ∀ (s : State) (f : Slot) (p : BitVec 2), s.cfg.wf →
    encode (.tcSetpri f p) = (pack 0x01 f 0 (p.setWidth 16), []) ∧ encode (.tcSetrep f) = (pack 0x03 f 0 0, []) ∧
    (s.cfg.nframes ≤ f.toNat →
      exec (.tcSetpri f p) s = .next { s with response := some ⟨.errArg, 0, 0, []⟩ } ∧
      exec (.tcSetrep f) s = .next { s with response := some ⟨.errArg, 0, 0, []⟩ }) ∧
    (f.toNat < s.cfg.nframes →
      (∃ t, exec (.tcSetpri f p) s = .next t ∧
        StoredRun s t f.toNat 0 [(s.byte f.toNat 0 &&& 0xF3) ||| (p.setWidth 8 <<< 2)]) ∧
      (∃ t, exec (.tcSetrep f) s = .next t ∧ StoredRun s t f.toNat 0 [s.byte f.toNat 0 &&& 0xDF]))

/-- R105, R107: addresses are stored high byte first.  (The byte order itself rests on general knowledge, R44,
notes/assumptions/13.md.) -/
def Obligations.AddressSetters : Prop :=
  ∀ (s : State) (f : Slot) (a : Half),
    encode (.tcSetsrc f a) = (pack 0x04 f 0 a, []) ∧ encode (.tcSetdst f a) = (pack 0x06 f 0 a, []) ∧
    (s.cfg.nframes ≤ f.toNat →
      exec (.tcSetsrc f a) s = .next { s with response := some ⟨.errArg, 0, 0, []⟩ } ∧
      exec (.tcSetdst f a) s = .next { s with response := some ⟨.errArg, 0, 0, []⟩ }) ∧
    (f.toNat < s.cfg.nframes →
      (∃ t, exec (.tcSetsrc f a) s = .next t ∧ StoredRun s t f.toNat 1 [a.extractLsb' 8 8, a.extractLsb' 0 8]) ∧
      (∃ t, exec (.tcSetdst f a) s = .next t ∧ StoredRun s t f.toNat 3 [a.extractLsb' 8 8, a.extractLsb' 0 8]))

/-- R109, R111: the routing byte's setters replace MC and HOP and keep its other bits. -/
def Obligations.RoutingByteSetters : Prop :=
  ∀ (s : State) (f : Slot) (b : BitVec 1) (h : BitVec 3),
    encode (.tcSetmc f b) = (pack 0x08 f 0 (b.setWidth 16), []) ∧
    encode (.tcSethop f h) = (pack 0x0A f 0 (h.setWidth 16), []) ∧
    (s.cfg.nframes ≤ f.toNat →
      exec (.tcSetmc f b) s = .next { s with response := some ⟨.errArg, 0, 0, []⟩ } ∧
      exec (.tcSethop f h) s = .next { s with response := some ⟨.errArg, 0, 0, []⟩ }) ∧
    (f.toNat < s.cfg.nframes →
      (∃ t, exec (.tcSetmc f b) s = .next t ∧
        StoredRun s t f.toNat 5 [(s.byte f.toNat 5 &&& 0x7F) ||| (b.setWidth 8 <<< 7)]) ∧
      (∃ t, exec (.tcSethop f h) s = .next t ∧
        StoredRun s t f.toNat 5 [(s.byte f.toNat 5 &&& 0x8F) ||| (h.setWidth 8 <<< 4)]))

/-- R113: the payload length is replaced, 0 is refused, nothing else moves. -/
def Obligations.SetlenReplacesLengthAndRefusesZero : Prop :=
  ∀ (s : State) (f : Slot) (n : BitVec 4), encode (.tcSetlen f n) = (pack 0x0C f 0 (n.setWidth 16), []) ∧
    (s.cfg.nframes ≤ f.toNat ∨ n = 0 →
      exec (.tcSetlen f n) s = .next { s with response := some ⟨.errArg, 0, 0, []⟩ }) ∧
    (f.toNat < s.cfg.nframes → n ≠ 0 → ∃ t, exec (.tcSetlen f n) s = .next t ∧
      StoredRun s t f.toNat 5 [(s.byte f.toNat 5 &&& 0xF0) ||| n.setWidth 8])

/-- R103, R106, R108, R110, R112, R114: the header getters answer their field zero-extended and change no state.  (PRI's
position and the address byte order rest on general knowledge, R21, R44, notes/assumptions/13.md.) -/
def Obligations.HeaderGetters : Prop :=
  ∀ (s : State) (f : Slot),
    let b := s.byte f.toNat
    let bad : Host.Outcome State Fault Refusal := .next { s with response := some ⟨.errArg, 0, 0, []⟩ }
    let ok (v : Half) : Host.Outcome State Fault Refusal := .next { s with response := some ⟨.ok, 0, v, []⟩ }
    (encode (.tcGetpri f) = (pack 0x02 f 0 0, []) ∧ encode (.tcGetsrc f) = (pack 0x05 f 0 0, []) ∧
      encode (.tcGetdst f) = (pack 0x07 f 0 0, []) ∧ encode (.tcIsmc f) = (pack 0x09 f 0 0, []) ∧
      encode (.tcGethop f) = (pack 0x0B f 0 0, []) ∧ encode (.tcGetlen f) = (pack 0x0D f 0 0, [])) ∧
    (s.cfg.nframes ≤ f.toNat →
      exec (.tcGetpri f) s = bad ∧ exec (.tcGetsrc f) s = bad ∧ exec (.tcGetdst f) s = bad ∧
      exec (.tcIsmc f) s = bad ∧ exec (.tcGethop f) s = bad ∧ exec (.tcGetlen f) s = bad) ∧
    (f.toNat < s.cfg.nframes →
      exec (.tcGetpri f) s = ok (((b 0).extractLsb' 2 2).setWidth 16) ∧
      exec (.tcGetsrc f) s = ok (b 1 ++ b 2) ∧
      exec (.tcGetdst f) s = ok (b 3 ++ b 4) ∧
      exec (.tcIsmc f) s = ok (((b 5).extractLsb' 7 1).setWidth 16) ∧
      exec (.tcGethop f) s = ok (((b 5).extractLsb' 4 3).setWidth 16) ∧
      exec (.tcGetlen f) s = ok (((b 5).extractLsb' 0 4).setWidth 16))

/-! ## TC: command field, payload, raw bytes (41_tc_command_payload.md) -/

/-- R121: the code's two halves; the other bits of both bytes stay.  (That the high half lies in byte 6 rests on general
knowledge, 10_state.md R23, notes/assumptions/13.md.) -/
def Obligations.SetcmdSplitsTheCode : Prop :=
  ∀ (s : State) (f : Slot) (c : BitVec 4), encode (.tcSetcmd f c) = (pack 0x0E f 0 (c.setWidth 16), []) ∧
    (s.cfg.nframes ≤ f.toNat → exec (.tcSetcmd f c) s = .next { s with response := some ⟨.errArg, 0, 0, []⟩ }) ∧
    (f.toNat < s.cfg.nframes → ∃ t, exec (.tcSetcmd f c) s = .next t ∧ StoredRun s t f.toNat 6
      [(s.byte f.toNat 6 &&& 0xFC) ||| (c.extractLsb' 2 2).setWidth 8,
       (s.byte f.toNat 7 &&& 0x3F) ||| ((c.extractLsb' 0 2).setWidth 8 <<< 6)])

/-- R123, R124: the first payload value is replaced or cleared; the command bits beside it stay. -/
def Obligations.FirstPayloadSetters : Prop :=
  ∀ (s : State) (f : Slot) (v : BitVec 6),
    encode (.tcSetfpb f v) = (pack 0x10 f 0 (v.setWidth 16), []) ∧ encode (.tcClrfpb f) = (pack 0x11 f 0 0, []) ∧
    (s.cfg.nframes ≤ f.toNat →
      exec (.tcSetfpb f v) s = .next { s with response := some ⟨.errArg, 0, 0, []⟩ } ∧
      exec (.tcClrfpb f) s = .next { s with response := some ⟨.errArg, 0, 0, []⟩ }) ∧
    (f.toNat < s.cfg.nframes →
      (∃ t, exec (.tcSetfpb f v) s = .next t ∧
        StoredRun s t f.toNat 7 [(s.byte f.toNat 7 &&& 0xC0) ||| v.setWidth 8]) ∧
      (∃ t, exec (.tcClrfpb f) s = .next t ∧ StoredRun s t f.toNat 7 [s.byte f.toNat 7 &&& 0xC0]) ∧
      exec (.tcClrfpb f) s = exec (.tcSetfpb f 0) s)

/-- R122, R125, R129: the command code, the first payload value and the frame's length are answered, no state changes.  (That
the code's high half lies in byte 6 rests on general knowledge, R23, notes/assumptions/13.md.) -/
def Obligations.CommandPayloadAndLengthGetters : Prop :=
  ∀ (s : State) (f : Slot),
    let b := s.byte f.toNat
    let bad : Host.Outcome State Fault Refusal := .next { s with response := some ⟨.errArg, 0, 0, []⟩ }
    let ok (v : Half) : Host.Outcome State Fault Refusal := .next { s with response := some ⟨.ok, 0, v, []⟩ }
    (encode (.tcGetcmd f) = (pack 0x0F f 0 0, []) ∧ encode (.tcGetfpb f) = (pack 0x12 f 0 0, []) ∧
      encode (.tcTlen f) = (pack 0x1B f 0 0, [])) ∧
    (s.cfg.nframes ≤ f.toNat →
      exec (.tcGetcmd f) s = bad ∧ exec (.tcGetfpb f) s = bad ∧ exec (.tcTlen f) s = bad) ∧
    (f.toNat < s.cfg.nframes →
      exec (.tcGetcmd f) s = ok (((b 6).extractLsb' 0 2 ++ (b 7).extractLsb' 6 2).setWidth 16) ∧
      exec (.tcGetfpb f) s = ok (((b 7).extractLsb' 0 6).setWidth 16) ∧
      (s.cfg.wf → ∃ v : Half, exec (.tcTlen f) s = ok v ∧ v.toNat = 8 + (b 5).toNat % 16))

/-- R126: the first min(n, 14) burst bytes are stored at offsets 8 and up, in order; a longer burst is no error. -/
def Obligations.SetlpStoresClampedBurst : Prop :=
  ∀ (s : State) (f : Slot) (d : List Byte), s.cfg.wf →
    encode (.tcSetlp f d) = (pack 0x13 f 0 ((BitVec.ofNat 8 d.length).setWidth 16), d) ∧
    (s.cfg.nframes ≤ f.toNat → exec (.tcSetlp f d) s = .next { s with response := some ⟨.errArg, 0, 0, []⟩ }) ∧
    (f.toNat < s.cfg.nframes → ∃ t, exec (.tcSetlp f d) s = .next t ∧
      StoredRun s t f.toNat 8 (d.take (min d.length 14)))

/-- R127: the response burst is the min(n, 14) bytes from offset 8 on; no state changes. -/
def Obligations.GetlpAnswersClampedRun : Prop :=
  ∀ (s : State) (f : Slot) (n : Byte), s.cfg.wf → encode (.tcGetlp f n) = (pack 0x14 f 0 (n.setWidth 16), []) ∧
    (s.cfg.nframes ≤ f.toNat → exec (.tcGetlp f n) s = .next { s with response := some ⟨.errArg, 0, 0, []⟩ }) ∧
    (f.toNat < s.cfg.nframes → exec (.tcGetlp f n) s =
      .next { s with response := some ⟨.ok, 0, 0, (List.range (min n.toNat 14)).map fun k => s.byte f.toNat (8 + k)⟩ })

/-- R128: all 14 long-payload positions are zeroed, whatever the length field says; the extent is the spec's choice D15. -/
def Obligations.ClrlpZeroesLongPayload : Prop :=
  ∀ (s : State) (f : Slot), s.cfg.wf → encode (.tcClrlp f) = (pack 0x15 f 0 0, []) ∧
    (s.cfg.nframes ≤ f.toNat → exec (.tcClrlp f) s = .next { s with response := some ⟨.errArg, 0, 0, []⟩ }) ∧
    (f.toNat < s.cfg.nframes → ∃ t, exec (.tcClrlp f) s = .next t ∧ StoredRun s t f.toNat 8 (List.replicate 14 0))

/-- R130, R131: raw access to offsets 0 to 22, refused above. -/
def Obligations.RawByteAccess : Prop :=
  ∀ (s : State) (f : Slot) (i : BitVec 5) (v : Byte), s.cfg.wf →
    encode (.tcRdbyte f i) = (pack 0x1C f 0 (i.setWidth 16), []) ∧
    encode (.tcWrbyte f i v) = (pack 0x1D f 0 (i.setWidth 8 ++ v), []) ∧
    (s.cfg.nframes ≤ f.toNat ∨ 23 ≤ i.toNat →
      exec (.tcRdbyte f i) s = .next { s with response := some ⟨.errArg, 0, 0, []⟩ } ∧
      exec (.tcWrbyte f i v) s = .next { s with response := some ⟨.errArg, 0, 0, []⟩ }) ∧
    (f.toNat < s.cfg.nframes → i.toNat ≤ 22 →
      exec (.tcRdbyte f i) s = .next { s with response := some ⟨.ok, 0, (s.byte f.toNat i.toNat).setWidth 16, []⟩ } ∧
      ∃ t, exec (.tcWrbyte f i v) s = .next t ∧ StoredRun s t f.toNat i.toNat [v])

/-! ## TC: checksum, validation, copy (42_tc_checksum_validate_copy.md) -/

/-- R140, R141, R142: the checksum is the complement of the exclusive-or of offsets 0 to 6 + L; TC.CALCCHK answers it and
changes nothing; TC.UPDCHK stores it at offset 7 + L and nothing else. -/
def Obligations.ChecksumComputedAndStored : Prop :=
  ∀ (s : State) (f : Slot),
    let L := (s.byte f.toNat 5).toNat % 16
    let chk := ~~~ ((List.range (7 + L)).foldl (fun x k => x ^^^ s.byte f.toNat k) 0)
    encode (.tcCalcchk f) = (pack 0x16 f 0 0, []) ∧ encode (.tcUpdchk f) = (pack 0x17 f 0 0, []) ∧
    (s.cfg.nframes ≤ f.toNat →
      exec (.tcCalcchk f) s = .next { s with response := some ⟨.errArg, 0, 0, []⟩ } ∧
      exec (.tcUpdchk f) s = .next { s with response := some ⟨.errArg, 0, 0, []⟩ }) ∧
    (f.toNat < s.cfg.nframes →
      exec (.tcCalcchk f) s = .next { s with response := some ⟨.ok, 0, chk.setWidth 16, []⟩ } ∧
      ∃ t, exec (.tcUpdchk f) s = .next t ∧ StoredRun s t f.toNat (7 + L) [chk])

/-- R143, R144: the verdict is that of the first failing check; the frame is not changed.  The masks and values of checks 1, 2
and 4 are parameters (R145); with those R5 gives them, which rest on general knowledge (notes/assumptions/13.md), the verdict is
R143's. -/
def Obligations.ValidateAnswersFirstFailingCheck : Prop :=
  ∀ (s : State) (f : Slot),
    let b := s.byte f.toNat
    let L := (b 5).toNat % 16
    let chk := ~~~ ((List.range (7 + L)).foldl (fun x k => x ^^^ b k) 0)
    let code : BitVec 4 := (b 6).extractLsb' 0 2 ++ (b 7).extractLsb' 6 2
    let verdict := fun pm pv fm fv cm cv : Byte =>
      if b 0 &&& pm ≠ pv then (1 : Half)
      else if b 0 &&& fm ≠ fv then 2
      else if L = 0 then 3
      else if b 6 &&& cm ≠ cv then 4
      else if b (7 + L) ≠ chk then 5
      else if code ∉ [0, 1, 2, 10] then 6
      else 0
    let c := s.cfg
    encode (.tcValidate f) = (pack 0x18 f 0 0, []) ∧
    (c.nframes ≤ f.toNat → exec (.tcValidate f) s = .next { s with response := some ⟨.errArg, 0, 0, []⟩ }) ∧
    (f.toNat < c.nframes → exec (.tcValidate f) s = .next { s with response := some ⟨.ok, 0,
      verdict c.ctrlPatternMask c.ctrlPatternValue c.ctrlFormatMask c.ctrlFormatStandard c.cmdPatternMask
        c.cmdPatternValue, []⟩ }) ∧
    (f.toNat < c.nframes → c.ctrlPatternMask = 0x13 → c.ctrlPatternValue = 0x10 → c.ctrlFormatMask = 0xC0 →
      c.ctrlFormatStandard = 0x80 → c.cmdPatternMask = 0xC0 → c.cmdPatternValue = 0x00 →
      exec (.tcValidate f) s = .next { s with response := some ⟨.ok, 0, verdict 0x13 0x10 0xC0 0x80 0xC0 0x00, []⟩ })

/-- R147: all 23 bytes are copied; copying a slot onto itself changes no byte. -/
def Obligations.CopyCopiesWholeSlot : Prop :=
  ∀ (s : State) (f g : Slot), s.cfg.wf → encode (.tcCopy f g) = (pack 0x19 f g 0, []) ∧
    (s.cfg.nframes ≤ f.toNat ∨ s.cfg.nframes ≤ g.toNat →
      exec (.tcCopy f g) s = .next { s with response := some ⟨.errArg, 0, 0, []⟩ }) ∧
    (f.toNat < s.cfg.nframes → g.toNat < s.cfg.nframes → ∃ t, exec (.tcCopy f g) s = .next t ∧
      StoredRun s t f.toNat 0 ((List.range 23).map fun i => s.byte g.toNat i) ∧
      (f = g → ∀ a, t.read a = s.read a))

/-- TC.COPYHDR copies offsets 0 to 5.  That the header is six bytes the spec marks as general knowledge (R148, D19,
notes/assumptions/13.md). -/
def Obligations.CopyhdrCopiesSixBytes : Prop :=
  ∀ (s : State) (f g : Slot), s.cfg.wf → encode (.tcCopyhdr f g) = (pack 0x1A f g 0, []) ∧
    (s.cfg.nframes ≤ f.toNat ∨ s.cfg.nframes ≤ g.toNat →
      exec (.tcCopyhdr f g) s = .next { s with response := some ⟨.errArg, 0, 0, []⟩ }) ∧
    (f.toNat < s.cfg.nframes → g.toNat < s.cfg.nframes → ∃ t, exec (.tcCopyhdr f g) s = .next t ∧
      StoredRun s t f.toNat 0 ((List.range 6).map fun i => s.byte g.toNat i))

/-! ## TC: laws across commands -/

/-- What a setter stores its getter answers, at every value (R106, R122 and the other field rules); a raw read after an address
setter sees its two bytes high byte first (R45 (c)), an order that rests on general knowledge (R44, notes/assumptions/13.md,
PRESUMED). -/
def Obligations.SetThenGetAnswersOperand : Prop :=
  ∀ (s t u : State) (f : Slot), s.cfg.wf → f.toNat < s.cfg.nframes →
    (∀ p, exec (.tcSetpri f p) s = .next t → exec (.tcGetpri f) t = .next u → u.response = some ⟨.ok, 0, p.setWidth 16, []⟩) ∧
    (∀ a, exec (.tcSetsrc f a) s = .next t → exec (.tcGetsrc f) t = .next u → u.response = some ⟨.ok, 0, a, []⟩) ∧
    (∀ a, exec (.tcSetsrc f a) s = .next t → exec (.tcRdbyte f 1) t = .next u →
      u.response = some ⟨.ok, 0, (a.extractLsb' 8 8).setWidth 16, []⟩) ∧
    (∀ a, exec (.tcSetsrc f a) s = .next t → exec (.tcRdbyte f 2) t = .next u →
      u.response = some ⟨.ok, 0, (a.extractLsb' 0 8).setWidth 16, []⟩) ∧
    (∀ a, exec (.tcSetdst f a) s = .next t → exec (.tcGetdst f) t = .next u → u.response = some ⟨.ok, 0, a, []⟩) ∧
    (∀ b, exec (.tcSetmc f b) s = .next t → exec (.tcIsmc f) t = .next u → u.response = some ⟨.ok, 0, b.setWidth 16, []⟩) ∧
    (∀ h, exec (.tcSethop f h) s = .next t → exec (.tcGethop f) t = .next u → u.response = some ⟨.ok, 0, h.setWidth 16, []⟩) ∧
    (∀ n, n ≠ 0 → exec (.tcSetlen f n) s = .next t → exec (.tcGetlen f) t = .next u →
      u.response = some ⟨.ok, 0, n.setWidth 16, []⟩) ∧
    (∀ c, exec (.tcSetcmd f c) s = .next t → exec (.tcGetcmd f) t = .next u → u.response = some ⟨.ok, 0, c.setWidth 16, []⟩) ∧
    (∀ v, exec (.tcSetfpb f v) s = .next t → exec (.tcGetfpb f) t = .next u → u.response = some ⟨.ok, 0, v.setWidth 16, []⟩) ∧
    (∀ i v, i.toNat ≤ 22 → exec (.tcWrbyte f i v) s = .next t → exec (.tcRdbyte f i) t = .next u →
      u.response = some ⟨.ok, 0, v.setWidth 16, []⟩)

/-- A setter replaces its own field only (R100 (c)): fields that share its byte keep their values, and TC.SETREP's bit 5 ends
false.  The positions of PRI, of the repeat bit and its polarity, and of the code's high half rest on general knowledge (R21,
R23, notes/assumptions/13.md, PRESUMED). -/
def Obligations.SettersKeepNeighbourFields : Prop :=
  ∀ (s t : State) (f : Slot), s.cfg.wf → f.toNat < s.cfg.nframes →
    let c := fun x : State => x.byte f.toNat 0
    let r := fun x : State => x.byte f.toNat 5
    let p := fun x : State => x.byte f.toNat 6
    let q := fun x : State => x.byte f.toNat 7
    (∀ v, exec (.tcSetpri f v) s = .next t → (c t).extractLsb' 4 4 = (c s).extractLsb' 4 4 ∧
      (c t).extractLsb' 0 2 = (c s).extractLsb' 0 2) ∧
    (exec (.tcSetrep f) s = .next t → (c t).extractLsb' 6 2 = (c s).extractLsb' 6 2 ∧
      (c t).extractLsb' 0 5 = (c s).extractLsb' 0 5 ∧ (c t).getLsbD 5 = false) ∧
    (∀ v, exec (.tcSetmc f v) s = .next t → (r t).extractLsb' 0 7 = (r s).extractLsb' 0 7) ∧
    (∀ v, exec (.tcSethop f v) s = .next t → (r t).getLsbD 7 = (r s).getLsbD 7 ∧
      (r t).extractLsb' 0 4 = (r s).extractLsb' 0 4) ∧
    (∀ v, exec (.tcSetlen f v) s = .next t → (r t).extractLsb' 4 4 = (r s).extractLsb' 4 4) ∧
    (∀ v, exec (.tcSetcmd f v) s = .next t → (p t).extractLsb' 2 6 = (p s).extractLsb' 2 6 ∧
      (q t).extractLsb' 0 6 = (q s).extractLsb' 0 6) ∧
    (∀ v, exec (.tcSetfpb f v) s = .next t → (q t).extractLsb' 6 2 = (q s).extractLsb' 6 2)

/-- After TC.UPDCHK (R142, R151 (a)) the exclusive-or of offsets 0 to 7 + L is 0xFF, TC.VALIDATE does not answer a checksum
mismatch, and a second TC.UPDCHK changes no byte. -/
def Obligations.UpdchkMakesFrameConsistent : Prop :=
  ∀ (s t : State) (f : Slot), f.toNat < s.cfg.nframes → exec (.tcUpdchk f) s = .next t →
    let L := (s.byte f.toNat 5).toNat % 16
    (List.range (8 + L)).foldl (fun x k => x ^^^ t.byte f.toNat k) 0 = 0xFF ∧
    (∃ v, v ≠ 5 ∧ exec (.tcValidate f) t = .next { t with response := some ⟨.ok, 0, v, []⟩ }) ∧
    (∃ u, exec (.tcUpdchk f) t = .next u ∧ ∀ a, u.read a = t.read a)

/-- A single-bit error is always detected (R151 (b)): flip any bit of offsets 0 to 7 + L, other than a bit of L itself, in a
frame whose checksum is right, and check 5 fails. -/
def Obligations.SingleBitErrorIsDetected : Prop :=
  ∀ (s : State) (f i j : Nat), s.byte f (7 + s.payloadLen f) = s.chk f → i ≤ 7 + s.payloadLen f → j < 8 →
    ¬ (i = 5 ∧ j < 4) →
    let t := s.setByte f i (s.byte f i ^^^ (1#8 <<< j))
    t.payloadLen f = s.payloadLen f ∧ t.byte f (7 + t.payloadLen f) ≠ t.chk f

/-- What the checksum and the verdict do not depend on (R151 (c), (d), (e)): the order of the covered bytes (offset 5 aside,
which holds L), the bytes from offset 7 + L on for the checksum, and those from 8 + L on for the verdict. -/
def Obligations.ChecksumAndVerdictIgnore : Prop :=
  ∀ (s : State) (f i j : Nat) (v : Byte),
    (i < 7 + s.payloadLen f → j < 7 + s.payloadLen f → i ≠ 5 → j ≠ 5 →
      ((s.setByte f i (s.byte f j)).setByte f j (s.byte f i)).chk f = s.chk f) ∧
    (7 + s.payloadLen f ≤ i → (s.setByte f i v).chk f = s.chk f) ∧
    (8 + s.payloadLen f ≤ i → (s.setByte f i v).verdict f = s.verdict f)

/-- A verdict of 0 is that of a frame of 9 to 23 bytes (FRAME_MIN and FRAME_BYTES of R5). -/
def Obligations.ValidFrameHasLegalLength : Prop :=
  ∀ (s t u : State) (f : Slot) (v : Half), s.cfg.wf → f.toNat < s.cfg.nframes → exec (.tcValidate f) s = .next t →
    t.response = some ⟨.ok, 0, 0, []⟩ → exec (.tcTlen f) t = .next u → u.response = some ⟨.ok, 0, v, []⟩ →
    9 ≤ v.toNat ∧ v.toNat ≤ 23

/-- Long payload round trip (R127 (f)): what TC.SETLP stored TC.GETLP answers with the same count, the first 14 bytes when
there are more. -/
def Obligations.LongPayloadRoundTrip : Prop :=
  ∀ (s : State) (f : Slot) (d : List Byte), s.cfg.wf → f.toNat < s.cfg.nframes → d.length ≤ 255 →
    ∃ t, exec (.tcSetlp f d) s = .next t ∧ exec (.tcGetlp f (BitVec.ofNat 8 d.length)) t =
      .next { t with response := some ⟨.ok, 0, 0, d.take 14⟩ }

/-- After TC.COPY the two slots are equal as byte arrays, so every TC command that reads a slot answers alike on both (R147 (a)
names the getters, TC.CALCCHK and TC.VALIDATE; TC.RDBYTE, TC.GETLP and TC.TLEN with them). -/
def Obligations.CopiedSlotsAnswerAlike : Prop :=
  ∀ (s t : State) (f g : Slot), s.cfg.wf → f.toNat < s.cfg.nframes → g.toNat < s.cfg.nframes →
    exec (.tcCopy f g) s = .next t →
    (∀ i < 23, t.byte f.toNat i = t.byte g.toNat i) ∧
    exec (.tcGetpri f) t = exec (.tcGetpri g) t ∧ exec (.tcGetsrc f) t = exec (.tcGetsrc g) t ∧
    exec (.tcGetdst f) t = exec (.tcGetdst g) t ∧ exec (.tcIsmc f) t = exec (.tcIsmc g) t ∧
    exec (.tcGethop f) t = exec (.tcGethop g) t ∧ exec (.tcGetlen f) t = exec (.tcGetlen g) t ∧
    exec (.tcGetcmd f) t = exec (.tcGetcmd g) t ∧ exec (.tcGetfpb f) t = exec (.tcGetfpb g) t ∧
    (∀ n, exec (.tcGetlp f n) t = exec (.tcGetlp g n) t) ∧ exec (.tcTlen f) t = exec (.tcTlen g) t ∧
    (∀ i, exec (.tcRdbyte f i) t = exec (.tcRdbyte g i) t) ∧
    exec (.tcCalcchk f) t = exec (.tcCalcchk g) t ∧ exec (.tcValidate f) t = exec (.tcValidate g) t

/-- The pseudo-command TC.LOAD (R76): its expansion stores the listed bytes from offset 0 on and no other byte. -/
def Obligations.LoadExpansionStoresBytes : Prop :=
  ∀ (s : State) (f : Slot) (bs : List Byte), s.cfg.wf → f.toNat < s.cfg.nframes → 1 ≤ bs.length → bs.length ≤ 23 →
    ∃ t, execAll (Pseudo.load f bs).expand s = .next t ∧ StoredRun s t f.toNat 0 bs

/-! ## AQ (43_action_queue.md) -/

/-- R161: append always succeeds with legal operands, evicting the oldest entry of a full queue and counting the loss. -/
def Obligations.AppendEvictsOldestWhenFull : Prop :=
  ∀ (s : State) (kind : BitVec 2) (index short : Byte) (data : List Byte), s.cfg.wf →
    encode (.aqAppend kind index short data) =
      (pack 0x40 (BitVec.ofNat 4 data.length) (kind.setWidth 4) (index ++ short), data) ∧
    (kind = 3 ∨ 15 ≤ data.length → exec (.aqAppend kind index short data) s =
      .next { s with response := some ⟨.errArg, 0, 0, []⟩ }) ∧
    (∀ k, kindCode k = kind → data.length ≤ 14 →
      exec (.aqAppend kind index short data) s = .next { s with
        queue := (if s.queue.length = s.cfg.aqCapacity then s.queue.tail else s.queue) ++ [⟨k, index, short, data⟩]
        lost := if s.queue.length = s.cfg.aqCapacity then BitVec.ofNat 16 (min (s.lost.toNat + 1) 0xFFFF) else s.lost
        response := some ⟨.ok, 0, 0, []⟩ })

/-- R163, R165: pop removes the oldest entry and answers it, or EMPTY; AQ.LOST answers the count and clears nothing. -/
def Obligations.PopAnswersOldestAndLostIsRead : Prop :=
  encode .aqPop = (pack 0x41 0 0 0, []) ∧ encode .aqLost = (pack 0x42 0 0 0, []) ∧
  (∀ s : State, s.queue = [] → exec .aqPop s = .next { s with response := some ⟨.empty, 0, 0, []⟩ }) ∧
  (∀ (s : State) (e : Entry) (q : List Entry), s.queue = e :: q → exec .aqPop s = .next { s with
    queue := q
    response := some ⟨.ok, BitVec.ofNat 4 e.data.length ++ (0 : BitVec 2) ++ kindCode e.kind, e.index ++ e.short, e.data⟩ }) ∧
  (∀ s : State, exec .aqLost s = .next { s with response := some ⟨.ok, 0, s.lost, []⟩ })

/-- The FIFO law's closing sentence (R164): after k accepted appends from reset and no pops, Q holds the last min(k, N)
entries in order and lost = min(max(k - N, 0), 0xFFFF); for every N ≥ 1. -/
def Obligations.LastAppendsSurvive : Prop :=
  ∀ (c : Config) (es : List Entry), c.wf → (∀ e ∈ es, e.data.length ≤ 14) →
    ∃ t, execAll (es.map fun e => .aqAppend (kindCode e.kind) e.index e.short e.data) (State.init c) = .next t ∧
      t.queue = es.drop (es.length - c.aqCapacity) ∧ t.lost.toNat = min (es.length - c.aqCapacity) 0xFFFF

/-- The circular buffer of R27 with the index arithmetic of R166 refines the queue: append and pop on the one are append and
pop on the other, and the buffer stays well-formed. -/
def Obligations.RingRefinesQueue : Prop :=
  ∀ (r : Ring) (s : State), r.wf → r.buf.length = s.cfg.aqCapacity → r.entries = s.queue →
    (∀ e, (r.append e).wf ∧ (r.append e).buf.length = s.cfg.aqCapacity ∧ (r.append e).entries = (s.enqueue e).queue) ∧
    (s.queue ≠ [] → r.pop.wf ∧ r.pop.buf.length = s.cfg.aqCapacity ∧ r.pop.entries = s.queue.tail)

/-! ## AI (44_address_index.md) -/

/-- R182, R183: the table is replaced whole by exactly the pairs (a, least flagged index carrying a), in ascending order of
address; the status is always OK. -/
def Obligations.BuildMakesLeastIndexTable : Prop :=
  ∀ (s : State) (objs : List Descriptor),
    encode (.aiBuild objs) = (pack 0x50 0 0 ((BitVec.ofNat 8 objs.length).setWidth 16),
      objs.flatMap fun d => [d.addr.extractLsb' 8 8, d.addr.extractLsb' 0 8, d.flags]) ∧
    (objs.length ≤ 255 → ∃ T, exec (.aiBuild objs) s = .next { s with table := T, response := some ⟨.ok, 0, 0, []⟩ } ∧
      T.Pairwise (fun p q => p.addr < q.addr) ∧ T.length ≤ objs.length ∧
      ∀ (a : Half) (i : Byte), (⟨a, i⟩ : Pair) ∈ T ↔ LeastFlagged objs a i.toNat)

/-- R184: a lookup answers the index of the pair that carries exactly the address, or NOT_FOUND; no state changes.  The
premise is the table's part of the invariant (StepKeepsInvariant). -/
def Obligations.LookupIsExactMatch : Prop :=
  ∀ (s : State) (a : Half), encode (.aiLookup a) = (pack 0x51 0 0 a, []) ∧
    (s.table.Pairwise (fun p q => p.addr < q.addr) →
      (∀ i, (⟨a, i⟩ : Pair) ∈ s.table →
        exec (.aiLookup a) s = .next { s with response := some ⟨.ok, 0, i.setWidth 16, []⟩ }) ∧
      ((∀ p ∈ s.table, p.addr ≠ a) → exec (.aiLookup a) s = .next { s with response := some ⟨.notFound, 0, 0, []⟩ }))

/-- The whole AI unit (R186 (a), (b)): after AI.BUILD a lookup answers i exactly when i is the least index whose object is
flagged and carries the address, and NOT_FOUND exactly when there is none; whatever the size of the list. -/
def Obligations.LookupAfterBuildFindsLeastFlaggedIndex : Prop :=
  ∀ (s : State) (objs : List Descriptor) (a : Half), objs.length ≤ 255 →
    ∃ t, exec (.aiBuild objs) s = .next t ∧
      (∀ i : Nat, LeastFlagged objs a i ↔
        i < 255 ∧ exec (.aiLookup a) t = .next { t with response := some ⟨.ok, 0, BitVec.ofNat 16 i, []⟩ }) ∧
      ((∀ i, ¬ LeastFlagged objs a i) ↔ exec (.aiLookup a) t = .next { t with response := some ⟨.notFound, 0, 0, []⟩ })

/-! ## Parameters -/

/-- R5: the block as built has each parameter at the value R5 gives it, AQ_CAPACITY at one of at least 1 that is left free (D23),
and State.reset is the reset state of that block.  That State.reset stands in this configuration is the model's choice
(notes/assumptions/3.md, DESIGN CHOICE).  The header's size and the masks and values (of checks 1, 2 and 4, of the repeat flag
and of the priority) are those R5 marks as general knowledge (notes/assumptions/13.md, PRESUMED). -/
def Obligations.BuiltBlockHasParametersOfR5 : Prop :=
  State.reset = State.init Config.built ∧ Config.built.wf ∧
  let c := Config.built
  c.frameBytes = 23 ∧ c.frameMin = 9 ∧ c.hdrLenOffset = 8 ∧ c.paylenMax = 15 ∧ c.longMax = c.paylenMax - 1 ∧
  c.headerBytes = 6 ∧ c.nframes = 2 ∧ c.ctrlDefault = 0xBC ∧ c.routingDefault = 0xE1 ∧ c.ctrlPatternMask = 0x13 ∧
  c.ctrlPatternValue = 0x10 ∧ c.ctrlFormatMask = 0xC0 ∧ c.ctrlFormatStandard = 0x80 ∧ c.ctrlRepeatMask = 0x20 ∧
  c.ctrlPriorityMask = 0x0C ∧ c.cmdPatternMask = 0xC0 ∧ c.cmdPatternValue = 0x00 ∧ 1 ≤ c.aqCapacity ∧
  c.aqLostBits = 16 ∧ c.aiMaxObjects = 255 ∧ c.aiIndexBits = 8
end

