-- ==== Sys2Proof/Laws/Decode.lean ====
section
/-! SUPPORT. Laws of the encoding: the fields of a packed word, the masks applied to one, and the opcode table's rows told
apart by their opcodes. -/

namespace Sys2Proof

/-- The bits of a packed word (R61). -/
theorem getLsbD_pack (op : Byte) (f g : BitVec 4) (imm : Half) (i : Nat) :
    (pack op f g imm).getLsbD i =
      if i < 16 then imm.getLsbD i else if i < 20 then g.getLsbD (i - 16)
      else if i < 24 then f.getLsbD (i - 20) else op.getLsbD (i - 24) := by
  unfold pack
  rw [BitVec.getLsbD_append, BitVec.getLsbD_append, BitVec.getLsbD_append]
  by_cases h1 : i < 16
  · simp [h1]
  · by_cases h2 : i < 20
    · rw [if_neg h1, if_pos (by omega), if_neg h1, if_pos h2]
    · by_cases h3 : i < 24
      · rw [if_neg h1, if_neg (by omega), if_pos (by omega), if_neg h1, if_neg h2, if_pos h3]; congr 1
      · rw [if_neg h1, if_neg (by omega), if_neg (by omega), if_neg h1, if_neg h2, if_neg h3]; congr 1

@[simp] theorem opField_pack (op : Byte) (f g : BitVec 4) (imm : Half) : opField (pack op f g imm) = op := by
  ext i hi
  rw [opField, BitVec.getElem_extractLsb', getLsbD_pack, if_neg (by omega), if_neg (by omega), if_neg (by omega),
    Nat.add_sub_cancel_left, BitVec.getLsbD_eq_getElem hi]

@[simp] theorem slotField_pack (op : Byte) (f g : BitVec 4) (imm : Half) : slotField (pack op f g imm) = f := by
  ext i hi
  rw [slotField, BitVec.getElem_extractLsb', getLsbD_pack, if_neg (by omega), if_neg (by omega), if_pos (by omega),
    Nat.add_sub_cancel_left, BitVec.getLsbD_eq_getElem hi]

@[simp] theorem sourceField_pack (op : Byte) (f g : BitVec 4) (imm : Half) : sourceField (pack op f g imm) = g := by
  ext i hi
  rw [sourceField, BitVec.getElem_extractLsb', getLsbD_pack, if_neg (by omega), if_pos (by omega),
    Nat.add_sub_cancel_left, BitVec.getLsbD_eq_getElem hi]

/-- A field inside the immediate is a field of the word. -/
theorem extract_pack (op : Byte) (f g : BitVec 4) (imm : Half) (lo n : Nat) (h : lo + n ≤ 16) :
    (pack op f g imm).extractLsb' lo n = imm.extractLsb' lo n := by
  ext i hi
  rw [BitVec.getElem_extractLsb', getLsbD_pack, if_pos (by omega), BitVec.getElem_extractLsb']

/-- The low bits of a widened immediate. -/
theorem extract_setWidth {n : Nat} (v : BitVec n) (h : n ≤ 16) : (v.setWidth 16).extractLsb' 0 n = v := by
  ext i hi
  have : i < 16 := by omega
  simp [BitVec.getElem_extractLsb', this, BitVec.getLsbD_eq_getElem hi]

/-- The kind field lies in the low half of the source field. -/
theorem kind_pack (op : Byte) (f g : BitVec 4) (imm : Half) :
    (pack op f g imm).extractLsb' 16 2 = g.extractLsb' 0 2 := by
  ext i hi
  rw [BitVec.getElem_extractLsb', getLsbD_pack, if_neg (by omega), if_pos (by omega), BitVec.getElem_extractLsb',
    Nat.add_sub_cancel_left, Nat.zero_add]

/-- A mask applies field by field. -/
theorem pack_and (op op' : Byte) (f f' g g' : BitVec 4) (imm imm' : Half) :
    pack op f g imm &&& pack op' f' g' imm' = pack (op &&& op') (f &&& f') (g &&& g') (imm &&& imm') := by
  unfold pack
  repeat rw [BitVec.and_append]

/-- A packed word lies in a row exactly when each of its fields does. -/
theorem pack_inj {op op' : Byte} {f f' g g' : BitVec 4} {imm imm' : Half}
    (h : pack op f g imm = pack op' f' g' imm') : op = op' ∧ f = f' ∧ g = g' ∧ imm = imm' := by
  refine ⟨?_, ?_, ?_, ?_⟩
  · simpa using congrArg opField h
  · simpa using congrArg slotField h
  · simpa using congrArg sourceField h
  · have := congrArg (fun w => w.extractLsb' 0 16) h
    simpa [extract_pack, BitVec.extractLsb'_eq_self] using this

/-- Every word is packed from its four fields. -/
theorem pack_fields (w : Word) : pack (opField w) (slotField w) (sourceField w) (w.extractLsb' 0 16) = w := by
  ext i hi
  rw [← BitVec.getLsbD_eq_getElem, getLsbD_pack]
  simp only [opField, slotField, sourceField, BitVec.getLsbD_extractLsb']
  by_cases h1 : i < 16
  · simp [h1, BitVec.getLsbD_eq_getElem hi]
  · by_cases h2 : i < 20
    · simp [h1, h2, show i - 16 < 4 by omega, show 16 + (i - 16) = i by omega, BitVec.getLsbD_eq_getElem hi]
    · by_cases h3 : i < 24
      · simp [h1, h2, h3, show i - 20 < 4 by omega, show 20 + (i - 20) = i by omega, BitVec.getLsbD_eq_getElem hi]
      · simp [h1, h2, h3, show i - 24 < 8 by omega, show 24 + (i - 24) = i by omega, BitVec.getLsbD_eq_getElem hi]

/-- R70: every row's mask covers the opcode, and its pattern is the opcode alone. -/
theorem opcodeTable_masks : opcodeTable.all (fun r => r.mask >>> 24 == 0xFF && r.pattern <<< 8 == 0) = true := by decide

/-- R70: no two rows share an opcode. -/
theorem opcodeTable_opcodes_distinct : (opcodeTable.map fun r => opField r.pattern).Nodup := by decide

/-- A word in a row has the row's opcode. -/
theorem opField_of_matches {r : Row} (hr : r ∈ opcodeTable) {w : Word} (h : r.Matches w = true) :
    opField w = opField r.pattern := by
  have hm := List.all_eq_true.mp opcodeTable_masks r hr
  simp only [Bool.and_eq_true, beq_iff_eq] at hm
  have hw : w &&& r.mask = r.pattern := by simpa [Row.Matches] using h
  have hM : opField r.mask = 0xFF := by
    rw [← BitVec.toNat_inj]
    have := congrArg BitVec.toNat hm.1
    simp [opField, BitVec.toNat_ushiftRight, BitVec.extractLsb'_toNat] at this ⊢
    omega
  have he : opField (w &&& r.mask) = opField w &&& opField r.mask := by ext i hi; simp [opField]
  rw [← hw, he, hM]; exact BitVec.and_allOnes.symm

/-- R70: at most one row matches any word. -/
theorem row_unique {r r' : Row} (hr : r ∈ opcodeTable) (hr' : r' ∈ opcodeTable) {w : Word}
    (h : r.Matches w = true) (h' : r'.Matches w = true) : r = r' :=
  List.inj_on_of_nodup_map opcodeTable_opcodes_distinct hr hr'
    ((opField_of_matches hr h).symm.trans (opField_of_matches hr' h'))

/-- The row found for a word is the row that matches it. -/
theorem rowOf_eq {r : Row} (hr : r ∈ opcodeTable) {w : Word} (h : r.Matches w = true) : rowOf w = some r := by
  unfold rowOf
  cases hf : opcodeTable.find? fun r => r.Matches w with
  | none => exact absurd h (List.find?_eq_none.mp hf r hr)
  | some r' =>
    have h' : r'.Matches w = true := List.find?_some (p := fun r : Row => r.Matches w) hf
    rw [row_unique (List.mem_of_find?_eq_some hf) hr h' h]

/-- Mnemonics tell rows apart. -/
theorem row_of_mnemonic {r r' : Row} (hr : r ∈ opcodeTable) (hr' : r' ∈ opcodeTable)
    (h : r.mnemonic = r'.mnemonic) : r = r' :=
  List.inj_on_of_nodup_map (f := Row.mnemonic) (by decide) hr hr' h

/-- The fields of a word that lies in a row: the reserved bits of each are zero (R72). -/
theorem fields_of_matches {r : Row} {w : Word} {op : Byte} {mf mg : BitVec 4} {mi : Half} (h : r.Matches w = true)
    (hm : r.mask = pack 0xFF mf mg mi) (hp : r.pattern = pack op 0 0 0) :
    opField w = op ∧ slotField w &&& mf = 0 ∧ sourceField w &&& mg = 0 ∧ w.extractLsb' 0 16 &&& mi = 0 := by
  have hw : w &&& r.mask = r.pattern := by simpa [Row.Matches] using h
  rw [hm, hp, ← pack_fields w, pack_and] at hw
  obtain ⟨h1, h2, h3, h4⟩ := pack_inj hw
  exact ⟨BitVec.and_allOnes.symm.trans h1, h2, h3, h4⟩

/-- An immediate whose high bits are zero is its low field widened. -/
theorem imm_of_low {n : Nat} (x : Half) (h : x &&& (BitVec.allOnes 16 <<< n) = 0) :
    (x.extractLsb' 0 n).setWidth 16 = x := by
  ext i hi
  rw [BitVec.getElem_setWidth, BitVec.getLsbD_extractLsb', Nat.zero_add]
  by_cases h1 : i < n
  · simp [h1, BitVec.getLsbD_eq_getElem hi]
  · have hb := congrArg (fun v : Half => v.getLsbD i) h
    simp only [BitVec.getLsbD_and, BitVec.getLsbD_shiftLeft, BitVec.getLsbD_allOnes] at hb
    simp only [hi, h1, decide_true, decide_false, Bool.not_false, Bool.and_true,
      show i - n < 16 by omega] at hb
    simp [h1, ← BitVec.getLsbD_eq_getElem hi, hb]

theorem append_low {m n : Nat} (a : BitVec m) (b : BitVec n) : (a ++ b).extractLsb' 0 n = b := by
  ext i hi; simp [BitVec.getLsbD_append, hi]

theorem append_high {m n : Nat} (a : BitVec m) (b : BitVec n) : (a ++ b).extractLsb' n m = a := by
  ext i hi; simp [BitVec.getLsbD_append, BitVec.getLsbD_eq_getElem hi]

theorem half_of_bytes (a : Half) : (a.extractLsb' 8 8 ++ a.extractLsb' 0 8 : Half) = a := by
  ext i hi
  rw [← BitVec.getLsbD_eq_getElem, BitVec.getLsbD_append]
  by_cases h : i < 8
  · simp [h, BitVec.getLsbD_eq_getElem hi]
  · simp [h, show i - 8 < 8 by omega, show 8 + (i - 8) = i by omega, BitVec.getLsbD_eq_getElem hi]

/-- Descriptors survive their bytes (R181). -/
theorem descriptorsOf_flatMap (objs : List Descriptor) : descriptorsOf (objs.flatMap descriptorBytes) = objs := by
  induction objs with
  | nil => rfl
  | cons d ds ih => simp [descriptorBytes, descriptorsOf, ih, half_of_bytes]

theorem length_descriptorBytes (objs : List Descriptor) :
    (objs.flatMap descriptorBytes).length = 3 * objs.length := by
  induction objs with
  | nil => rfl
  | cons d ds ih => rw [List.flatMap_cons, List.length_append, ih]; simp [descriptorBytes]; omega

/-- A burst of 3 n bytes is its n descriptors' bytes (R181). -/
theorem flatMap_descriptorsOf (n : Nat) (b : List Byte) (h : b.length = 3 * n) :
    (descriptorsOf b).flatMap descriptorBytes = b ∧ (descriptorsOf b).length = n := by
  induction n generalizing b with
  | zero => simp at h; subst h; simp [descriptorsOf]
  | succ n ih =>
    match b, h with
    | hi :: lo :: flags :: rest, h =>
      have := ih rest (by simp at h; omega)
      simp only [descriptorsOf, List.flatMap_cons, descriptorBytes, this, List.length_cons,
        append_high hi lo, append_low hi lo]
      simp

end Sys2Proof
end

