-- ==== Sys2Proof/Laws/Memory.lean ====
section
/-! SUPPORT. Laws of frame space as memory: read over write, the canonical form kept by every operation, and canonical
memories that read alike are equal. -/

namespace Sys2Proof.Machine

variable {cfg : Config}

theorem Memory.read_nil (a : Nat) : Memory.read cfg [] a = Memory.unlisted cfg a := rfl

theorem Memory.read_of_absent (m : Memory) (a : Nat) (h : ∀ c ∈ m, c.1 ≠ a) :
    Memory.read cfg m a = Memory.unlisted cfg a := by
  induction m with
  | nil => rfl
  | cons c m ih =>
    have hc : c.1 ≠ a := h c (by simp)
    simp only [Memory.read, hc, if_false]
    exact ih fun d hd => h d (by simp [hd])

theorem Memory.read_filter_same (m : Memory) (a : Nat) :
    Memory.read cfg (m.filter fun c => c.1 != a) a = Memory.unlisted cfg a :=
  Memory.read_of_absent _ _ fun c hc => by simpa using (List.mem_filter.mp hc).2

theorem Memory.read_filter_other (m : Memory) (a x : Nat) (h : x ≠ a) :
    Memory.read cfg (m.filter fun c => c.1 != a) x = Memory.read cfg m x := by
  induction m with
  | nil => rfl
  | cons c m ih =>
    by_cases hc : c.1 = a
    · have hx : c.1 ≠ x := fun e => h (e ▸ hc)
      simp [hc, Memory.read, ih, Ne.symm h]
    · simp [hc, Memory.read, ih]

theorem Memory.read_insert (m : Memory) (a x : Nat) (b : Byte) (h : ∀ c ∈ m, c.1 ≠ a) :
    Memory.read cfg (Memory.insert m a b) x = if x = a then b else Memory.read cfg m x := by
  induction m with
  | nil => simp [Memory.insert, Memory.read, eq_comm]
  | cons c m ih =>
    have hc : c.1 ≠ a := h c (by simp)
    have ih := ih fun d hd => h d (by simp [hd])
    by_cases hlt : a < c.1
    · by_cases hx : x = a
      · simp [Memory.insert, hlt, Memory.read, hx]
      · simp [Memory.insert, hlt, Memory.read, hx, Ne.symm hx]
    · by_cases hcx : c.1 = x
      · subst hcx; simp [Memory.insert, hlt, Memory.read, hc]
      · simp [Memory.insert, hlt, Memory.read, hcx, ih]

/-- Read over write, at every address and in every memory, canonical or not. -/
theorem Memory.read_write (m : Memory) (a x : Nat) (b : Byte) :
    Memory.read cfg (Memory.write cfg m a b) x = if x = a then b else Memory.read cfg m x := by
  have habs : ∀ c ∈ m.filter (fun c => c.1 != a), c.1 ≠ a := fun c hc => by
    simpa using (List.mem_filter.mp hc).2
  unfold Memory.write
  split
  · rename_i hb
    by_cases hx : x = a
    · subst hx; simp [Memory.read_filter_same, hb]
    · simp [Memory.read_filter_other _ _ _ hx, hx]
  · rw [Memory.read_insert _ _ _ _ habs]
    by_cases hx : x = a
    · simp [hx]
    · simp [hx, Memory.read_filter_other _ _ _ hx]

theorem Memory.mem_insert (m : Memory) (a : Nat) (b : Byte) (c : Host.Cell) :
    c ∈ Memory.insert m a b ↔ c = (a, b) ∨ c ∈ m := by
  induction m with
  | nil => simp [Memory.insert]
  | cons d m ih =>
    unfold Memory.insert
    split
    · simp
    · simp only [List.mem_cons, ih]; tauto

theorem Memory.insert_sorted (m : Memory) (a : Nat) (b : Byte) (h : m.Pairwise fun c d => c.1 < d.1)
    (habs : ∀ c ∈ m, c.1 ≠ a) : (Memory.insert m a b).Pairwise fun c d => c.1 < d.1 := by
  induction m with
  | nil => simp [Memory.insert]
  | cons d m ih =>
    have hd : ∀ c ∈ m, d.1 < c.1 := fun c hc => List.rel_of_pairwise_cons h hc
    have ih := ih h.of_cons fun c hc => habs c (by simp [hc])
    have hda : d.1 ≠ a := habs d (by simp)
    unfold Memory.insert
    split
    · rename_i hlt
      refine List.pairwise_cons.mpr ⟨fun c hc => ?_, h⟩
      rcases List.mem_cons.mp hc with rfl | hc
      · exact hlt
      · exact Nat.lt_trans hlt (hd c hc)
    · refine List.pairwise_cons.mpr ⟨fun c hc => ?_, ih⟩
      rcases (Memory.mem_insert m a b c).mp hc with rfl | hc
      · show d.1 < a; omega
      · exact hd c hc

/-- What a written memory lists. -/
theorem Memory.mem_write {m : Memory} {a : Nat} {b : Byte} {c : Host.Cell} (h : c ∈ Memory.write cfg m a b) :
    c = (a, b) ∨ c ∈ m := by
  unfold Memory.write at h
  split at h
  · exact .inr (List.mem_filter.mp h).1
  · exact (Memory.mem_insert _ _ _ _).mp h |>.imp id fun h => (List.mem_filter.mp h).1

/-- Every memory operation keeps the canonical form; a write is the only one that changes a memory. -/
theorem Memory.write_wf (m : Memory) (a : Nat) (b : Byte) (h : Memory.wf cfg m) : Memory.wf cfg (Memory.write cfg m a b) := by
  have hsorted : (m.filter fun c => c.1 != a).Pairwise fun c d => c.1 < d.1 := h.1.filter _
  have habs : ∀ c ∈ m.filter (fun c => c.1 != a), c.1 ≠ a := fun c hc => by
    simpa using (List.mem_filter.mp hc).2
  unfold Memory.write
  split
  · exact ⟨hsorted, fun c hc => h.2 c (List.mem_filter.mp hc).1⟩
  · rename_i hb
    refine ⟨Memory.insert_sorted _ _ _ hsorted habs, fun c hc => ?_⟩
    rcases (Memory.mem_insert _ _ _ _).mp hc with rfl | hc
    · exact hb
    · exact h.2 c (List.mem_filter.mp hc).1

theorem Memory.nil_wf : Memory.wf cfg [] := ⟨.nil, by simp⟩

theorem Memory.read_of_mem (m : Memory) (h : m.Pairwise fun c d => c.1 < d.1) (c : Host.Cell) (hc : c ∈ m) :
    Memory.read cfg m c.1 = c.2 := by
  induction m with
  | nil => cases hc
  | cons d m ih =>
    rcases List.mem_cons.mp hc with rfl | hc
    · simp [Memory.read]
    · have hlt := List.rel_of_pairwise_cons h hc
      have hne : d.1 ≠ c.1 := by omega
      simpa [Memory.read, hne] using ih h.of_cons hc

/-- Equal memories are equal data: two canonical memories that read alike are one list. -/
theorem Memory.ext_of_wf (m n : Memory) (hm : Memory.wf cfg m) (hn : Memory.wf cfg n)
    (h : ∀ a, Memory.read cfg m a = Memory.read cfg n a) : m = n := by
  have key : ∀ p q : Memory, Memory.wf cfg p → Memory.wf cfg q → (∀ a, Memory.read cfg p a = Memory.read cfg q a) → p ⊆ q := by
    intro p q hp hq hpq c hc
    by_contra hno
    have hr := Memory.read_of_mem (cfg := cfg) p hp.1 c hc
    by_cases hmem : ∃ d ∈ q, d.1 = c.1
    · obtain ⟨d, hd, hdc⟩ := hmem
      have hd2 := Memory.read_of_mem (cfg := cfg) q hq.1 d hd
      have : d = c := Prod.ext hdc (by rw [← hd2, hdc, ← hpq, hr])
      exact hno (this ▸ hd)
    · have := Memory.read_of_absent (cfg := cfg) q c.1 fun d hd e => hmem ⟨d, hd, e⟩
      exact hp.2 c hc (by rw [← hr, hpq, this])
  have hperm : m.Perm n := by
    have nd : ∀ p : Memory, Memory.wf cfg p → p.Nodup := fun p hp =>
      hp.1.imp fun {a b} hab e => by simp [e] at hab
    exact (List.perm_ext_iff_of_nodup (nd m hm) (nd n hn)).mpr fun c =>
      ⟨fun hc => key m n hm hn h hc, fun hc => key n m hn hm (fun a => (h a).symm) hc⟩
  exact List.Perm.eq_of_pairwise (fun a b _ _ hab hba => absurd hab (by omega)) hm.1 hn.1 hperm

/-- Slots do not alias (spec/10_state.md R20). -/
theorem frameAddr_inj {f g i j : Nat} (hi : i < cfg.frameBytes) (hj : j < cfg.frameBytes)
    (h : frameAddr cfg f i = frameAddr cfg g j) : f = g ∧ i = j := by
  simp only [frameAddr] at h
  have hf : f = g := by
    have h1 := congrArg (· / cfg.frameBytes) h
    have hpos : 0 < cfg.frameBytes := by omega
    simpa [Nat.mul_comm _ cfg.frameBytes, Nat.mul_add_div hpos, Nat.div_eq_of_lt hi, Nat.div_eq_of_lt hj] using h1
  exact ⟨hf, by subst hf; omega⟩

theorem frameAddr_same (f i j : Nat) : frameAddr cfg f i = frameAddr cfg f j ↔ i = j := by
  simp [frameAddr]

/-- Every byte of a slot that exists is inside frame space (R40 (a)). -/
theorem frameAddr_lt {f i n : Nat} (hf : f < n) (hi : i < cfg.frameBytes) :
    frameAddr cfg f i < n * cfg.frameBytes := by
  have : (f + 1) * cfg.frameBytes ≤ n * cfg.frameBytes := Nat.mul_le_mul_right _ hf
  simp only [frameAddr, Nat.add_mul, Nat.one_mul] at *; omega

end Sys2Proof.Machine
end

