-- ==== Sys2Proof/Laws/State.lean ====
section
/-! SUPPORT. One lemma per field per update of State, so that no later proof unfolds a record update. -/

namespace Sys2Proof.Machine

/-! The values R5 fixes (Config.fixed). -/

section
variable {c : Config} (h : c.wf)
include h

theorem frameBytes_of_wf : c.frameBytes = 23 := h.2.2.2.1.1
theorem frameMin_of_wf : c.frameMin = 9 := h.2.2.2.1.2.1
theorem hdrLenOffset_of_wf : c.hdrLenOffset = 8 := h.2.2.2.1.2.2.1
theorem longMax_of_wf : c.longMax = 14 := h.2.2.2.1.2.2.2.2.1
theorem headerBytes_of_wf : c.headerBytes = 6 := h.2.2.2.1.2.2.2.2.2
theorem ctrlDefault_of_wf : c.ctrlDefault = 0xBC := h.2.2.2.2.1.1
theorem routingDefault_of_wf : c.routingDefault = 0xE1 := h.2.2.2.2.1.2.1
theorem ctrlRepeatMask_of_wf : c.ctrlRepeatMask = 0x20 := h.2.2.2.2.1.2.2.1
theorem ctrlPriorityMask_of_wf : c.ctrlPriorityMask = 0x0C := h.2.2.2.2.1.2.2.2
theorem aqLostBits_of_wf : c.aqLostBits = 16 := h.2.2.2.2.2.1
theorem aiMaxObjects_of_wf : c.aiMaxObjects = 255 := h.2.2.2.2.2.2.1

/-- The counter adds one and stops at 0xFFFF (R166). -/
theorem bumpLost_of_wf (n : BitVec 16) : bumpLost c n = BitVec.ofNat 16 (min (n.toNat + 1) 0xFFFF) := by
  rw [bumpLost, aqLostBits_of_wf h]; norm_num

end

variable (s : State) (f i : Nat) (b : Byte) (bs : List Byte) (e : Entry)

@[simp] theorem State.setByte_cfg : (s.setByte f i b).cfg = s.cfg := rfl
@[simp] theorem State.setByte_frames :
    (s.setByte f i b).frames = Memory.write s.cfg s.frames (frameAddr s.cfg f i) b := rfl
@[simp] theorem State.setByte_queue : (s.setByte f i b).queue = s.queue := rfl
@[simp] theorem State.setByte_lost : (s.setByte f i b).lost = s.lost := rfl
@[simp] theorem State.setByte_table : (s.setByte f i b).table = s.table := rfl
@[simp] theorem State.setByte_input : (s.setByte f i b).input = s.input := rfl
@[simp] theorem State.setByte_response : (s.setByte f i b).response = s.response := rfl

@[simp] theorem State.setBytes_cfg : (s.setBytes f i bs).cfg = s.cfg := by
  induction bs generalizing s i with
  | nil => rfl
  | cons b bs ih => simp [State.setBytes, ih]
@[simp] theorem State.setBytes_queue : (s.setBytes f i bs).queue = s.queue := by
  induction bs generalizing s i with
  | nil => rfl
  | cons b bs ih => simp [State.setBytes, ih]
@[simp] theorem State.setBytes_lost : (s.setBytes f i bs).lost = s.lost := by
  induction bs generalizing s i with
  | nil => rfl
  | cons b bs ih => simp [State.setBytes, ih]
@[simp] theorem State.setBytes_table : (s.setBytes f i bs).table = s.table := by
  induction bs generalizing s i with
  | nil => rfl
  | cons b bs ih => simp [State.setBytes, ih]
@[simp] theorem State.setBytes_input : (s.setBytes f i bs).input = s.input := by
  induction bs generalizing s i with
  | nil => rfl
  | cons b bs ih => simp [State.setBytes, ih]
@[simp] theorem State.setBytes_response : (s.setBytes f i bs).response = s.response := by
  induction bs generalizing s i with
  | nil => rfl
  | cons b bs ih => simp [State.setBytes, ih]

@[simp] theorem State.enqueue_cfg : (s.enqueue e).cfg = s.cfg := by unfold State.enqueue; split <;> rfl
@[simp] theorem State.enqueue_frames : (s.enqueue e).frames = s.frames := by unfold State.enqueue; split <;> rfl
@[simp] theorem State.enqueue_table : (s.enqueue e).table = s.table := by unfold State.enqueue; split <;> rfl
@[simp] theorem State.enqueue_input : (s.enqueue e).input = s.input := by unfold State.enqueue; split <;> rfl
@[simp] theorem State.enqueue_response : (s.enqueue e).response = s.response := by unfold State.enqueue; split <;> rfl

@[simp] theorem State.init_cfg (c : Config) : (State.init c).cfg = c := rfl
@[simp] theorem State.init_frames (c : Config) : (State.init c).frames = [] := rfl
@[simp] theorem State.init_queue (c : Config) : (State.init c).queue = [] := rfl
@[simp] theorem State.init_lost (c : Config) : (State.init c).lost = 0 := rfl
@[simp] theorem State.init_table (c : Config) : (State.init c).table = [] := rfl
@[simp] theorem State.init_input (c : Config) : (State.init c).input = [] := rfl
@[simp] theorem State.init_response (c : Config) : (State.init c).response = none := rfl

@[simp] theorem State.afterReset_cfg : s.afterReset.cfg = s.cfg := rfl
@[simp] theorem State.afterReset_frames : s.afterReset.frames = [] := rfl
@[simp] theorem State.afterReset_queue : s.afterReset.queue = [] := rfl
@[simp] theorem State.afterReset_lost : s.afterReset.lost = 0 := rfl
@[simp] theorem State.afterReset_table : s.afterReset.table = [] := rfl
@[simp] theorem State.afterReset_input : s.afterReset.input = s.input := rfl
@[simp] theorem State.afterReset_response : s.afterReset.response = none := rfl

/-! What reads frame space alone sees nothing of the other fields but the parameters. -/

@[simp] theorem State.read_response (r : Option Response) (a : Nat) : { s with response := r }.read a = s.read a := rfl
@[simp] theorem State.read_input (p : List PortEvent) (a : Nat) : { s with input := p }.read a = s.read a := rfl
@[simp] theorem State.byte_response (r : Option Response) : { s with response := r }.byte f i = s.byte f i := rfl
@[simp] theorem State.byte_input (p : List PortEvent) : { s with input := p }.byte f i = s.byte f i := rfl

section
variable {s t : State} (hc : s.cfg = t.cfg) (h : s.frames = t.frames)
include hc h

theorem State.read_congr (a : Nat) : s.read a = t.read a := by simp [State.read, hc, h]

theorem State.byte_congr (f i : Nat) : s.byte f i = t.byte f i := by simp [State.byte, State.read, hc, h]

theorem State.bytes_congr (f i n : Nat) : s.bytes f i n = t.bytes f i n := by
  simp [State.bytes, State.byte_congr hc h]

theorem State.payloadLen_congr (f : Nat) : s.payloadLen f = t.payloadLen f := by
  simp [State.payloadLen, State.byte_congr hc h]

end

theorem State.xorUpTo_congr {s t : State} {f g : Nat} (n : Nat) (h : ∀ i < n, s.byte f i = t.byte g i) :
    s.xorUpTo f n = t.xorUpTo g n := by
  induction n with
  | zero => rfl
  | succ n ih => simp [State.xorUpTo, h n (by omega), ih fun i hi => h i (by omega)]

section
variable {s t : State} (hc : s.cfg = t.cfg) (h : s.frames = t.frames)
include hc h

theorem State.chk_congr (f : Nat) : s.chk f = t.chk f := by
  simp [State.chk, State.payloadLen_congr hc h, State.xorUpTo_congr _ fun i _ => State.byte_congr hc h f i]

theorem State.verdict_congr (f : Nat) : s.verdict f = t.verdict f := by
  simp [State.verdict, hc, State.payloadLen_congr hc h, State.chk_congr hc h, State.byte_congr hc h]

end

/-- The length field is a nibble, so every offset computed from it lies in the slot (spec/20_memory.md R46). -/
theorem State.payloadLen_le : s.payloadLen f ≤ 15 := by
  unfold State.payloadLen; omega

end Sys2Proof.Machine
end

