-- ==== Sys2Proof/Laws/Frames.lean ====
section
/-! SUPPORT. What the shared operations can do, said once: reading a slot after a write to it, a stored run, the canonical
form of frame space, and how a command with operand checks can end. -/

namespace Sys2Proof.Machine

/-- Read over write, at any address. -/
@[simp] theorem State.read_setByte (s : State) (f i a : Nat) (b : Byte) :
    (s.setByte f i b).read a = if a = frameAddr s.cfg f i then b else s.read a :=
  Memory.read_write _ _ _ _

/-- Read over write inside a slot. -/
theorem State.byte_setByte_same_slot (s : State) (f i j : Nat) (b : Byte) :
    (s.setByte f i b).byte f j = if j = i then b else s.byte f j := by
  simp only [State.byte, State.read_setByte, State.setByte_cfg, frameAddr_same]

/-- A write to one slot shows in no other (R20). -/
theorem State.byte_setByte_other_slot (s : State) {f g i j : Nat} (b : Byte) (hfg : g ≠ f)
    (hi : i < s.cfg.frameBytes) (hj : j < s.cfg.frameBytes) : (s.setByte f i b).byte g j = s.byte g j := by
  have : frameAddr s.cfg g j ≠ frameAddr s.cfg f i := fun h => hfg (frameAddr_inj hj hi h).1
  simp [State.byte, this]

/-- Read over a stored run, at any address. -/
theorem State.read_setBytes (s : State) (f lo a : Nat) (bs : List Byte) :
    (s.setBytes f lo bs).read a =
      if h : frameAddr s.cfg f lo ≤ a ∧ a < frameAddr s.cfg f lo + bs.length then bs[a - frameAddr s.cfg f lo]'(by omega)
      else s.read a := by
  induction bs generalizing s lo with
  | nil => simp [State.setBytes]
  | cons b bs ih =>
    have hnext : frameAddr s.cfg f (lo + 1) = frameAddr s.cfg f lo + 1 := rfl
    simp only [State.setBytes, ih, State.read_setByte, State.setByte_cfg, hnext, List.length_cons]
    by_cases h0 : a = frameAddr s.cfg f lo
    · subst h0; simp
    · by_cases h : frameAddr s.cfg f lo + 1 ≤ a ∧ a < frameAddr s.cfg f lo + 1 + bs.length
      · rw [dif_pos h, dif_pos (by omega), List.getElem_cons, dif_neg (by omega)]
        congr 1
      · rw [dif_neg h, dif_neg (by omega), if_neg h0]

/-- Reading a slot after a run was stored in it. -/
theorem State.byte_setBytes_same_slot (s : State) (f lo j : Nat) (bs : List Byte) :
    (s.setBytes f lo bs).byte f j =
      if h : lo ≤ j ∧ j < lo + bs.length then bs[j - lo]'(by omega) else s.byte f j := by
  rw [State.byte, State.setBytes_cfg, State.read_setBytes]
  by_cases h : lo ≤ j ∧ j < lo + bs.length
  · rw [dif_pos h, dif_pos (by simp only [frameAddr]; omega)]
    congr 1; simp only [frameAddr]; omega
  · rw [dif_neg h, dif_neg (by simp only [frameAddr]; omega)]; rfl

/-- A run stored in one slot shows in no other (R20). -/
theorem State.byte_setBytes_other_slot (s : State) {f g lo j : Nat} (bs : List Byte) (hfg : g ≠ f)
    (hlo : lo + bs.length ≤ s.cfg.frameBytes) (hj : j < s.cfg.frameBytes) :
    (s.setBytes f lo bs).byte g j = s.byte g j := by
  rw [State.byte, State.setBytes_cfg, State.read_setBytes, dif_neg]
  · rfl
  · rintro ⟨h1, h2⟩
    obtain ⟨k, hk⟩ := Nat.exists_eq_add_of_le h1
    have hg : frameAddr s.cfg g j = frameAddr s.cfg f (lo + k) := by simp only [frameAddr] at *; omega
    exact hfg (frameAddr_inj hj (by omega) hg).1

/-- A run of one byte is a byte written. -/
theorem State.setBytes_one (s : State) (f lo : Nat) (b : Byte) : s.setBytes f lo [b] = s.setByte f lo b := rfl

/-- What a command that stores a run and answers OK does: everything the frame of R100 asks. -/
theorem storedRun_setBytes (s : State) (f lo : Nat) (bs : List Byte) :
    StoredRun s { s.setBytes f lo bs with response := some (bare .ok) } f lo bs where
  stored k h := by
    have := State.byte_setBytes_same_slot s f lo (lo + k) bs
    rw [State.byte_response, this, dif_pos (by omega)]
    congr 1; omega
  elsewhere a h := by
    show (s.setBytes f lo bs).read a = _
    rw [State.read_setBytes, dif_neg]
    intro hin
    exact h (a - frameAddr s.cfg f lo) (by omega) (by simp only [frameAddr] at *; omega)
  cfg := by simp
  queue := by simp
  lost := by simp
  table := by simp
  input := by simp
  answered := rfl

theorem State.getElem_bytes (s : State) (f i n k : Nat) (h : k < (s.bytes f i n).length) :
    (s.bytes f i n)[k] = s.byte f (i + k) := by
  simp [State.bytes]

@[simp] theorem State.length_bytes (s : State) (f i n : Nat) : (s.bytes f i n).length = n := by
  simp [State.bytes]

/-- A run stored in a slot keeps the canonical form of frame space. -/
theorem State.setBytes_wf (s : State) (f lo : Nat) (bs : List Byte) (h : Memory.wf s.cfg s.frames) :
    Memory.wf s.cfg (s.setBytes f lo bs).frames := by
  induction bs generalizing s lo with
  | nil => exact h
  | cons b bs ih => exact ih _ _ (Memory.write_wf _ _ _ h)

/-- A run stored inside an existing slot lists no cell outside frame space. -/
theorem State.setBytes_in (s : State) {f lo n : Nat} (bs : List Byte) (hf : f < n)
    (hlo : lo + bs.length ≤ s.cfg.frameBytes) (h : ∀ c ∈ s.frames, c.1 < n * s.cfg.frameBytes) :
    ∀ c ∈ (s.setBytes f lo bs).frames, c.1 < n * s.cfg.frameBytes := by
  induction bs generalizing s lo with
  | nil => exact h
  | cons b bs ih =>
    simp only [List.length_cons] at hlo
    refine ih _ (by rw [State.setByte_cfg]; omega) fun c hc => ?_
    rcases Memory.mem_write hc with rfl | hc
    · exact frameAddr_lt hf (by omega)
    · exact h c hc

/-! ## How a command can end -/

theorem withSlot_of_lt {f : Slot} {s : State} {run : Host.Outcome State Fault Refusal} (h : f.toNat < s.cfg.nframes) :
    withSlot f s run = run := if_pos h

theorem withSlot_of_ge {f : Slot} {s : State} {run : Host.Outcome State Fault Refusal} (h : s.cfg.nframes ≤ f.toNat) :
    withSlot f s run = answerStatus s .errArg := if_neg (by omega)

/-- A command behind a slot check answers ERR_ARG for a slot there is not, or runs. -/
theorem withSlot_next {f : Slot} {s t : State} {run : Host.Outcome State Fault Refusal}
    (h : withSlot f s run = .next t) :
    (s.cfg.nframes ≤ f.toNat ∧ t = { s with response := some (bare .errArg) }) ∨
      (f.toNat < s.cfg.nframes ∧ run = .next t) := by
  unfold withSlot at h
  split at h
  · exact .inr ⟨‹_›, h⟩
  · exact .inl ⟨by omega, by simpa [answerStatus, answer] using h.symm⟩

/-- A command behind a further operand check answers ERR_ARG or runs. -/
theorem require_next {c : Prop} [Decidable c] {s t : State} {run : Host.Outcome State Fault Refusal}
    (h : require c s run = .next t) :
    (¬ c ∧ t = { s with response := some (bare .errArg) }) ∨ (c ∧ run = .next t) := by
  unfold require at h
  split at h
  · exact .inr ⟨‹_›, h⟩
  · exact .inl ⟨‹_›, by simpa [answerStatus, answer] using h.symm⟩

end Sys2Proof.Machine
end

