-- ==== Sys2Proof/Laws/Exec.lean ====
section
/-! SUPPORT. What a command can do, said once: every answer of `exec` has one of five forms. -/

namespace Sys2Proof.Machine

/-- The forms of a command's next state, with what each says of the command. -/
inductive Effect (i : Instr) (s : State) : State → Prop where
  /-- only the response: a read, an operand error, EMPTY or NOT_FOUND -/
  | answered (r : Response) (fits : r.Fits s.cfg) (bare_or_ok : r.status = .ok → IsGetter i)
      (noIllegal : r.status ≠ .errIllegal) (empty : r.status = .empty → i = .aqPop)
      (notFound : r.status = .notFound → ∃ a, i = .aiLookup a)
      (errArg : s.cfg.wf → r.status = .errArg → ErrArgCause s.cfg i)
      (aux : r.aux = 0) (burst : (∀ f n, i ≠ .tcGetlp f n) → r.burst = []) :
      Effect i s { s with response := some r }
  /-- a run of bytes stored in the slot the word names -/
  | stored (f : Slot) (lo : Nat) (bs : List Byte) (tc : IsTc i) (noGetter : ¬ IsGetter i)
      (slot : (encodeWord i).extractLsb' 20 4 = f)
      (slotExists : f.toNat < s.cfg.nframes) (inside : s.cfg.wf → lo + bs.length ≤ s.cfg.frameBytes)
      (legal : s.cfg.wf → ¬ ErrArgCause s.cfg i) :
      Effect i s { s.setBytes f.toNat lo bs with response := some (bare .ok) }
  /-- an entry queued -/
  | queued (k : Kind) (index short : Byte) (data : List Byte) (cmd : i = .aqAppend (kindCode k) index short data)
      (fits : data.length ≤ s.cfg.longMax) :
      Effect i s { s.enqueue ⟨k, index, short, data⟩ with response := some (bare .ok) }
  /-- the oldest entry popped -/
  | popped (e : Entry) (q : List Entry) (cmd : i = .aqPop) (queue : s.queue = e :: q) :
      Effect i s { s with queue := q, response := some ⟨.ok, entryAux e, entryValue e, e.data⟩ }
  /-- the table replaced -/
  | built (objs : List Descriptor) (cmd : i = .aiBuild objs) :
      Effect i s { s with table := Table.build objs, response := some (bare .ok) }

theorem kindCode_of_kindOfCode {c : BitVec 2} {k : Kind} (h : kindOfCode c = some k) : c = kindCode k := by
  revert h; cases k <;> revert c <;> decide

theorem kindOfCode_eq_none {c : BitVec 2} (h : kindOfCode c = none) : c = 3 := by
  revert h; revert c; decide

theorem bare_fits (c : Config) (st : Status) : (bare st).Fits c := ⟨fun _ => rfl, by simp [bare], by simp [bare]⟩

theorem value_fits (c : Config) (v : Half) : Response.Fits c ⟨.ok, 0, v, []⟩ := ⟨fun h => absurd rfl h, by simp, by simp⟩

/-- A command that ends with respond(ERR_ARG). -/
theorem effect_errArg {i : Instr} {s : State} (h : s.cfg.wf → ErrArgCause s.cfg i) :
    Effect i s { s with response := some (bare .errArg) } :=
  .answered _ (bare_fits _ _) (by simp [bare]) (by simp [bare]) (by simp [bare]) (by simp [bare]) (fun w _ => h w) rfl
    fun _ => rfl

/-- A command that ends with respond(OK, v). -/
theorem effect_value {i : Instr} {s : State} (v : Half) (h : IsGetter i) :
    Effect i s { s with response := some ⟨.ok, 0, v, []⟩ } :=
  .answered _ (value_fits _ v) (fun _ => h) (by simp) (by simp) (by simp) (by simp) rfl fun _ => rfl

/-- Behind the slot check. -/
theorem effect_withSlot {i : Instr} {f : Slot} {s : State} {run : Host.Outcome State Fault Refusal}
    (bad : s.cfg.nframes ≤ f.toNat → ErrArgCause s.cfg i)
    (h : f.toNat < s.cfg.nframes → ∃ t, run = .next t ∧ Effect i s t) :
    ∃ t, withSlot f s run = .next t ∧ Effect i s t := by
  by_cases hf : f.toNat < s.cfg.nframes
  · simpa [withSlot_of_lt hf] using h hf
  · exact ⟨_, withSlot_of_ge (by omega), effect_errArg fun _ => bad (by omega)⟩

/-- Behind a further operand check. -/
theorem effect_require {i : Instr} {c : Prop} [Decidable c] {s : State} {run : Host.Outcome State Fault Refusal}
    (bad : s.cfg.wf → ¬ c → ErrArgCause s.cfg i) (h : c → ∃ t, run = .next t ∧ Effect i s t) :
    ∃ t, require c s run = .next t ∧ Effect i s t := by
  by_cases hc : c
  · simpa [require, hc] using h hc
  · exact ⟨_, if_neg hc, effect_errArg fun w => bad w hc⟩

/-- A command of one slot that stores a run of bytes there. -/
theorem effect_store {i : Instr} {s : State} (f : Slot) (lo : Nat) (bs : List Byte)
    (run : exec i s = withSlot f s (answerOk (s.setBytes f.toNat lo bs))) (tc : IsTc i) (noGetter : ¬ IsGetter i)
    (slot : (encodeWord i).extractLsb' 20 4 = f) (inside : s.cfg.wf → lo + bs.length ≤ s.cfg.frameBytes)
    (cause : ErrArgCause s.cfg i ↔ s.cfg.nframes ≤ f.toNat) :
    ∃ t, exec i s = .next t ∧ Effect i s t :=
  run ▸ effect_withSlot cause.mpr fun h => ⟨_, rfl, .stored f lo bs tc noGetter slot h inside fun _ he => by
    have := cause.mp he
    omega⟩

/-- What a command can do. -/
theorem exec_effect (i : Instr) (s : State) : ∃ t, exec i s = .next t ∧ Effect i s t := by
  cases i
  case tcGetpri f =>
    exact effect_withSlot id fun _ => ⟨_, rfl, effect_value _ trivial⟩
  case tcGetsrc f =>
    exact effect_withSlot id fun _ => ⟨_, rfl, effect_value _ trivial⟩
  case tcGetdst f =>
    exact effect_withSlot id fun _ => ⟨_, rfl, effect_value _ trivial⟩
  case tcIsmc f =>
    exact effect_withSlot id fun _ => ⟨_, rfl, effect_value _ trivial⟩
  case tcGethop f =>
    exact effect_withSlot id fun _ => ⟨_, rfl, effect_value _ trivial⟩
  case tcGetlen f =>
    exact effect_withSlot id fun _ => ⟨_, rfl, effect_value _ trivial⟩
  case tcGetcmd f =>
    exact effect_withSlot id fun _ => ⟨_, rfl, effect_value _ trivial⟩
  case tcGetfpb f =>
    exact effect_withSlot id fun _ => ⟨_, rfl, effect_value _ trivial⟩
  case tcCalcchk f =>
    exact effect_withSlot id fun _ => ⟨_, rfl, effect_value _ trivial⟩
  case tcValidate f =>
    exact effect_withSlot id fun _ => ⟨_, rfl, effect_value _ trivial⟩
  case tcTlen f =>
    exact effect_withSlot id fun _ => ⟨_, rfl, effect_value _ trivial⟩
  case tcClear f =>
    exact effect_store f _ _ rfl trivial id (slotField_pack ..) (fun w => by simp [frameBytes_of_wf w]) .rfl
  case tcSetpri f p =>
    exact effect_store f _ [_] rfl trivial id (slotField_pack ..) (fun w => by simp [frameBytes_of_wf w]) .rfl
  case tcSetrep f =>
    exact effect_store f _ [_] rfl trivial id (slotField_pack ..) (fun w => by simp [frameBytes_of_wf w]) .rfl
  case tcSetsrc f a =>
    exact effect_store f _ _ rfl trivial id (slotField_pack ..) (fun w => by simp [halfBytes, frameBytes_of_wf w]) .rfl
  case tcSetdst f a =>
    exact effect_store f _ _ rfl trivial id (slotField_pack ..) (fun w => by simp [halfBytes, frameBytes_of_wf w]) .rfl
  case tcSetmc f b =>
    exact effect_store f _ [_] rfl trivial id (slotField_pack ..) (fun w => by simp [frameBytes_of_wf w]) .rfl
  case tcSethop f h =>
    exact effect_store f _ [_] rfl trivial id (slotField_pack ..) (fun w => by simp [frameBytes_of_wf w]) .rfl
  case tcSetlen f n =>
    have hz : n = 0 ↔ ¬ 1 ≤ n.toNat := by revert n; decide
    exact effect_withSlot .inl fun hf => effect_require (fun _ h => .inr (hz.mpr h)) fun hn =>
      ⟨_, rfl, .stored f 5 [_] trivial id (slotField_pack ..) hf (fun w => by simp [frameBytes_of_wf w])
        (fun _ => by rintro (h | h) <;> [omega; exact hz.mp h hn])⟩
  case tcSetcmd f c =>
    exact effect_store f _ _ rfl trivial id (slotField_pack ..) (fun w => by simp [frameBytes_of_wf w]) .rfl
  case tcSetfpb f v =>
    exact effect_store f _ [_] rfl trivial id (slotField_pack ..) (fun w => by simp [frameBytes_of_wf w]) .rfl
  case tcClrfpb f =>
    exact effect_store f _ [_] rfl trivial id (slotField_pack ..) (fun w => by simp [frameBytes_of_wf w]) .rfl
  case tcSetlp f d =>
    exact effect_store f _ _ rfl trivial id (slotField_pack ..)
      (fun w => by simp [clampCount, frameBytes_of_wf w, longMax_of_wf w]; omega) .rfl
  case tcClrlp f =>
    exact effect_store f _ _ rfl trivial id (slotField_pack ..)
      (fun w => by simp [frameBytes_of_wf w, longMax_of_wf w]) .rfl
  case tcUpdchk f =>
    exact effect_store f _ [_] rfl trivial id (slotField_pack ..)
      (fun w => by have := State.payloadLen_le s f.toNat; simp [frameBytes_of_wf w]; omega) .rfl
  case tcGetlp f n =>
    exact effect_withSlot id fun _ => ⟨_, rfl, .answered _
      ⟨fun h => absurd rfl h, by simp, by simp [clampCount]⟩ (fun _ => trivial) (by simp) (by simp)
      (by simp) (by simp) rfl fun h => absurd rfl (h f n)⟩
  case tcCopy f g =>
    exact effect_withSlot .inl fun hf => effect_withSlot .inr fun hg => ⟨_, rfl, .stored f 0 _ trivial id
      (slotField_pack ..) hf (fun w => by simp [frameBytes_of_wf w]) (fun _ => by simp only [ErrArgCause]; omega)⟩
  case tcCopyhdr f g =>
    exact effect_withSlot .inl fun hf => effect_withSlot .inr fun hg => ⟨_, rfl, .stored f 0 _ trivial id
      (slotField_pack ..) hf (fun w => by simp [frameBytes_of_wf w, headerBytes_of_wf w])
      (fun _ => by simp only [ErrArgCause]; omega)⟩
  case tcRdbyte f i =>
    exact effect_withSlot .inl fun _ => effect_require (fun w h => .inr (by simpa [frameBytes_of_wf w] using h))
      fun _ => ⟨_, rfl, effect_value _ trivial⟩
  case tcWrbyte f i v =>
    exact effect_withSlot .inl fun hf => effect_require (fun w h => .inr (by simpa [frameBytes_of_wf w] using h))
      fun hi => ⟨_, rfl, .stored f i.toNat [_] trivial id (slotField_pack ..) hf (fun _ => hi)
        (fun w => by simp only [ErrArgCause]; rw [frameBytes_of_wf w] at hi; omega)⟩
  case aqAppend kind index short data =>
    show ∃ t, execAqAppend kind index short data s = _ ∧ _
    unfold execAqAppend
    cases hk : kindOfCode kind with
    | none => exact ⟨_, rfl, effect_errArg fun _ => .inl (kindOfCode_eq_none hk)⟩
    | some k =>
      refine effect_require (fun w h => .inr ?_) fun h => ⟨_, rfl, .queued k index short data ?_ h⟩
      · rw [longMax_of_wf w] at h; omega
      · rw [kindCode_of_kindOfCode hk]
  case aqPop =>
    show ∃ t, execAqPop s = _ ∧ _
    unfold execAqPop
    cases hq : s.queue with
    | nil => exact ⟨_, rfl, .answered _ (bare_fits _ _) (by simp [bare]) (by simp [bare]) (by simp) (by simp [bare])
        (by simp [bare]) rfl fun _ => rfl⟩
    | cons e q => exact ⟨_, rfl, .popped e q rfl hq⟩
  case aqLost => exact ⟨_, rfl, effect_value _ trivial⟩
  case aiBuild objs => exact ⟨_, rfl, .built objs rfl⟩
  case aiLookup a =>
    show ∃ t, execAiLookup a s = _ ∧ _
    unfold execAiLookup
    split
    · exact ⟨_, rfl, effect_value _ trivial⟩
    · exact ⟨_, rfl, .answered _ (bare_fits _ _) (by simp [bare]) (by simp [bare]) (by simp [bare]) (fun _ => ⟨a, rfl⟩)
        (by simp [bare]) rfl fun _ => rfl⟩

/-- The same, of a next state in hand. -/
theorem effect_of_exec {i : Instr} {s t : State} (h : exec i s = .next t) : Effect i s t := by
  obtain ⟨u, hu, he⟩ := exec_effect i s
  exact Host.Outcome.next.inj (h.symm.trans hu) ▸ he

end Sys2Proof.Machine
end

