-- ==== Sys2Proof/Laws/PerInstr.lean ====
section
/-! SUPPORT. Per-instruction laws of the syntax: the family MatchesRow, the encoded word of an instruction lies in the row of
spec/30_encoding.md R70 that has its mnemonic. -/

namespace Sys2Proof

/-- The encoded word matches the opcode table's row of the instruction's own mnemonic (R70). -/
def Laws.MatchesRow.Statement (i : Instr) : Prop :=
  ∃ r, r ∈ opcodeTable ∧ r.mnemonic = i.mnemonic ∧ r.Matches (encodeWord i) = true

theorem row_mem (k : Nat) (h : k < opcodeTable.length) : opcodeTable[k] ∈ opcodeTable := List.getElem_mem h

/-- A packed word matches a row whose mask covers only zero fields of it beside the opcode. -/
theorem pack_matches {r : Row} {op : Byte} {f g mf mg : BitVec 4} {imm mi : Half}
    (hm : r.mask = pack 0xFF mf mg mi) (hp : r.pattern = pack op 0 0 0)
    (hf : f &&& mf = 0) (hg : g &&& mg = 0) (hi : imm &&& mi = 0) : r.Matches (pack op f g imm) = true := by
  have h : op &&& 0xFF = op := BitVec.and_allOnes
  rw [Row.Matches, hm, hp, pack_and, hf, hg, hi, h]; simp

/-- A field widened into the immediate leaves the reserved bits above it zero (R72). -/
theorem low_and_high {n : Nat} (v : BitVec n) : v.setWidth 16 &&& (BitVec.allOnes 16 <<< n) = 0 := by
  ext i hi
  simp only [BitVec.getElem_and, BitVec.getElem_setWidth, BitVec.getElem_shiftLeft]
  by_cases h : i < n
  · simp [h]
  · simp [BitVec.getLsbD_of_ge v i (by omega)]

theorem offset_and_high (i : BitVec 5) (v : Byte) : (i.setWidth 8 ++ v : Half) &&& 0xE000 = 0 := by
  have h : (0xE000 : Half) = (0xE0 : Byte) ++ (0x00 : Byte) := rfl
  have hi : ∀ i : BitVec 5, i.setWidth 8 &&& (0xE0 : Byte) = 0 := by decide
  have hv : v &&& (0x00 : Byte) = 0 := BitVec.and_zero
  rw [h, BitVec.and_append, hi, hv]; rfl

theorem kind_and_high (k : BitVec 2) : k.setWidth 4 &&& (0xC : BitVec 4) = 0 := by revert k; decide

theorem Laws.MatchesRow.tcClear (f : Slot) : Laws.MatchesRow.Statement (.tcClear f) :=
  ⟨_, row_mem 0 (by decide), rfl, pack_matches (mf := 0x0) (mg := 0xF) (mi := 0xFFFF) rfl rfl BitVec.and_zero BitVec.zero_and BitVec.zero_and⟩

theorem Laws.MatchesRow.tcSetpri (f : Slot) (p : BitVec 2) : Laws.MatchesRow.Statement (.tcSetpri f p) :=
  ⟨_, row_mem 1 (by decide), rfl, pack_matches (mf := 0x0) (mg := 0xF) (mi := (BitVec.allOnes 16 <<< 2)) rfl rfl BitVec.and_zero BitVec.zero_and (low_and_high _)⟩

theorem Laws.MatchesRow.tcGetpri (f : Slot) : Laws.MatchesRow.Statement (.tcGetpri f) :=
  ⟨_, row_mem 2 (by decide), rfl, pack_matches (mf := 0x0) (mg := 0xF) (mi := 0xFFFF) rfl rfl BitVec.and_zero BitVec.zero_and BitVec.zero_and⟩

theorem Laws.MatchesRow.tcSetrep (f : Slot) : Laws.MatchesRow.Statement (.tcSetrep f) :=
  ⟨_, row_mem 3 (by decide), rfl, pack_matches (mf := 0x0) (mg := 0xF) (mi := 0xFFFF) rfl rfl BitVec.and_zero BitVec.zero_and BitVec.zero_and⟩

theorem Laws.MatchesRow.tcSetsrc (f : Slot) (a : Half) : Laws.MatchesRow.Statement (.tcSetsrc f a) :=
  ⟨_, row_mem 4 (by decide), rfl, pack_matches (mf := 0x0) (mg := 0xF) (mi := 0x0000) rfl rfl BitVec.and_zero BitVec.zero_and BitVec.and_zero⟩

theorem Laws.MatchesRow.tcGetsrc (f : Slot) : Laws.MatchesRow.Statement (.tcGetsrc f) :=
  ⟨_, row_mem 5 (by decide), rfl, pack_matches (mf := 0x0) (mg := 0xF) (mi := 0xFFFF) rfl rfl BitVec.and_zero BitVec.zero_and BitVec.zero_and⟩

theorem Laws.MatchesRow.tcSetdst (f : Slot) (a : Half) : Laws.MatchesRow.Statement (.tcSetdst f a) :=
  ⟨_, row_mem 6 (by decide), rfl, pack_matches (mf := 0x0) (mg := 0xF) (mi := 0x0000) rfl rfl BitVec.and_zero BitVec.zero_and BitVec.and_zero⟩

theorem Laws.MatchesRow.tcGetdst (f : Slot) : Laws.MatchesRow.Statement (.tcGetdst f) :=
  ⟨_, row_mem 7 (by decide), rfl, pack_matches (mf := 0x0) (mg := 0xF) (mi := 0xFFFF) rfl rfl BitVec.and_zero BitVec.zero_and BitVec.zero_and⟩

theorem Laws.MatchesRow.tcSetmc (f : Slot) (b : BitVec 1) : Laws.MatchesRow.Statement (.tcSetmc f b) :=
  ⟨_, row_mem 8 (by decide), rfl, pack_matches (mf := 0x0) (mg := 0xF) (mi := (BitVec.allOnes 16 <<< 1)) rfl rfl BitVec.and_zero BitVec.zero_and (low_and_high _)⟩

theorem Laws.MatchesRow.tcIsmc (f : Slot) : Laws.MatchesRow.Statement (.tcIsmc f) :=
  ⟨_, row_mem 9 (by decide), rfl, pack_matches (mf := 0x0) (mg := 0xF) (mi := 0xFFFF) rfl rfl BitVec.and_zero BitVec.zero_and BitVec.zero_and⟩

theorem Laws.MatchesRow.tcSethop (f : Slot) (h : BitVec 3) : Laws.MatchesRow.Statement (.tcSethop f h) :=
  ⟨_, row_mem 10 (by decide), rfl, pack_matches (mf := 0x0) (mg := 0xF) (mi := (BitVec.allOnes 16 <<< 3)) rfl rfl BitVec.and_zero BitVec.zero_and (low_and_high _)⟩

theorem Laws.MatchesRow.tcGethop (f : Slot) : Laws.MatchesRow.Statement (.tcGethop f) :=
  ⟨_, row_mem 11 (by decide), rfl, pack_matches (mf := 0x0) (mg := 0xF) (mi := 0xFFFF) rfl rfl BitVec.and_zero BitVec.zero_and BitVec.zero_and⟩

theorem Laws.MatchesRow.tcSetlen (f : Slot) (n : BitVec 4) : Laws.MatchesRow.Statement (.tcSetlen f n) :=
  ⟨_, row_mem 12 (by decide), rfl, pack_matches (mf := 0x0) (mg := 0xF) (mi := (BitVec.allOnes 16 <<< 4)) rfl rfl BitVec.and_zero BitVec.zero_and (low_and_high _)⟩

theorem Laws.MatchesRow.tcGetlen (f : Slot) : Laws.MatchesRow.Statement (.tcGetlen f) :=
  ⟨_, row_mem 13 (by decide), rfl, pack_matches (mf := 0x0) (mg := 0xF) (mi := 0xFFFF) rfl rfl BitVec.and_zero BitVec.zero_and BitVec.zero_and⟩

theorem Laws.MatchesRow.tcSetcmd (f : Slot) (c : BitVec 4) : Laws.MatchesRow.Statement (.tcSetcmd f c) :=
  ⟨_, row_mem 14 (by decide), rfl, pack_matches (mf := 0x0) (mg := 0xF) (mi := (BitVec.allOnes 16 <<< 4)) rfl rfl BitVec.and_zero BitVec.zero_and (low_and_high _)⟩

theorem Laws.MatchesRow.tcGetcmd (f : Slot) : Laws.MatchesRow.Statement (.tcGetcmd f) :=
  ⟨_, row_mem 15 (by decide), rfl, pack_matches (mf := 0x0) (mg := 0xF) (mi := 0xFFFF) rfl rfl BitVec.and_zero BitVec.zero_and BitVec.zero_and⟩

theorem Laws.MatchesRow.tcSetfpb (f : Slot) (v : BitVec 6) : Laws.MatchesRow.Statement (.tcSetfpb f v) :=
  ⟨_, row_mem 16 (by decide), rfl, pack_matches (mf := 0x0) (mg := 0xF) (mi := (BitVec.allOnes 16 <<< 6)) rfl rfl BitVec.and_zero BitVec.zero_and (low_and_high _)⟩

theorem Laws.MatchesRow.tcClrfpb (f : Slot) : Laws.MatchesRow.Statement (.tcClrfpb f) :=
  ⟨_, row_mem 17 (by decide), rfl, pack_matches (mf := 0x0) (mg := 0xF) (mi := 0xFFFF) rfl rfl BitVec.and_zero BitVec.zero_and BitVec.zero_and⟩

theorem Laws.MatchesRow.tcGetfpb (f : Slot) : Laws.MatchesRow.Statement (.tcGetfpb f) :=
  ⟨_, row_mem 18 (by decide), rfl, pack_matches (mf := 0x0) (mg := 0xF) (mi := 0xFFFF) rfl rfl BitVec.and_zero BitVec.zero_and BitVec.zero_and⟩

theorem Laws.MatchesRow.tcSetlp (f : Slot) (data : List Byte) : Laws.MatchesRow.Statement (.tcSetlp f data) :=
  ⟨_, row_mem 19 (by decide), rfl, pack_matches (mf := 0x0) (mg := 0xF) (mi := (BitVec.allOnes 16 <<< 8)) rfl rfl BitVec.and_zero BitVec.zero_and (low_and_high _)⟩

theorem Laws.MatchesRow.tcGetlp (f : Slot) (n : Byte) : Laws.MatchesRow.Statement (.tcGetlp f n) :=
  ⟨_, row_mem 20 (by decide), rfl, pack_matches (mf := 0x0) (mg := 0xF) (mi := (BitVec.allOnes 16 <<< 8)) rfl rfl BitVec.and_zero BitVec.zero_and (low_and_high _)⟩

theorem Laws.MatchesRow.tcClrlp (f : Slot) : Laws.MatchesRow.Statement (.tcClrlp f) :=
  ⟨_, row_mem 21 (by decide), rfl, pack_matches (mf := 0x0) (mg := 0xF) (mi := 0xFFFF) rfl rfl BitVec.and_zero BitVec.zero_and BitVec.zero_and⟩

theorem Laws.MatchesRow.tcCalcchk (f : Slot) : Laws.MatchesRow.Statement (.tcCalcchk f) :=
  ⟨_, row_mem 22 (by decide), rfl, pack_matches (mf := 0x0) (mg := 0xF) (mi := 0xFFFF) rfl rfl BitVec.and_zero BitVec.zero_and BitVec.zero_and⟩

theorem Laws.MatchesRow.tcUpdchk (f : Slot) : Laws.MatchesRow.Statement (.tcUpdchk f) :=
  ⟨_, row_mem 23 (by decide), rfl, pack_matches (mf := 0x0) (mg := 0xF) (mi := 0xFFFF) rfl rfl BitVec.and_zero BitVec.zero_and BitVec.zero_and⟩

theorem Laws.MatchesRow.tcValidate (f : Slot) : Laws.MatchesRow.Statement (.tcValidate f) :=
  ⟨_, row_mem 24 (by decide), rfl, pack_matches (mf := 0x0) (mg := 0xF) (mi := 0xFFFF) rfl rfl BitVec.and_zero BitVec.zero_and BitVec.zero_and⟩

theorem Laws.MatchesRow.tcCopy (f g : Slot) : Laws.MatchesRow.Statement (.tcCopy f g) :=
  ⟨_, row_mem 25 (by decide), rfl, pack_matches (mf := 0x0) (mg := 0x0) (mi := 0xFFFF) rfl rfl BitVec.and_zero BitVec.and_zero BitVec.zero_and⟩

theorem Laws.MatchesRow.tcCopyhdr (f g : Slot) : Laws.MatchesRow.Statement (.tcCopyhdr f g) :=
  ⟨_, row_mem 26 (by decide), rfl, pack_matches (mf := 0x0) (mg := 0x0) (mi := 0xFFFF) rfl rfl BitVec.and_zero BitVec.and_zero BitVec.zero_and⟩

theorem Laws.MatchesRow.tcTlen (f : Slot) : Laws.MatchesRow.Statement (.tcTlen f) :=
  ⟨_, row_mem 27 (by decide), rfl, pack_matches (mf := 0x0) (mg := 0xF) (mi := 0xFFFF) rfl rfl BitVec.and_zero BitVec.zero_and BitVec.zero_and⟩

theorem Laws.MatchesRow.tcRdbyte (f : Slot) (i : BitVec 5) : Laws.MatchesRow.Statement (.tcRdbyte f i) :=
  ⟨_, row_mem 28 (by decide), rfl, pack_matches (mf := 0x0) (mg := 0xF) (mi := (BitVec.allOnes 16 <<< 5)) rfl rfl BitVec.and_zero BitVec.zero_and (low_and_high _)⟩

theorem Laws.MatchesRow.tcWrbyte (f : Slot) (i : BitVec 5) (v : Byte) : Laws.MatchesRow.Statement (.tcWrbyte f i v) :=
  ⟨_, row_mem 29 (by decide), rfl, pack_matches (mf := 0x0) (mg := 0xF) (mi := 0xE000) rfl rfl BitVec.and_zero BitVec.zero_and (offset_and_high i v)⟩

theorem Laws.MatchesRow.aqAppend (kind : BitVec 2) (index short : Byte) (data : List Byte) : Laws.MatchesRow.Statement (.aqAppend kind index short data) :=
  ⟨_, row_mem 30 (by decide), rfl, pack_matches (mf := 0x0) (mg := 0xC) (mi := 0x0000) rfl rfl BitVec.and_zero (kind_and_high kind) BitVec.and_zero⟩

theorem Laws.MatchesRow.aqPop : Laws.MatchesRow.Statement .aqPop :=
  ⟨_, row_mem 31 (by decide), rfl, pack_matches (mf := 0xF) (mg := 0xF) (mi := 0xFFFF) rfl rfl BitVec.zero_and BitVec.zero_and BitVec.zero_and⟩

theorem Laws.MatchesRow.aqLost : Laws.MatchesRow.Statement .aqLost :=
  ⟨_, row_mem 32 (by decide), rfl, pack_matches (mf := 0xF) (mg := 0xF) (mi := 0xFFFF) rfl rfl BitVec.zero_and BitVec.zero_and BitVec.zero_and⟩

theorem Laws.MatchesRow.aiBuild (objs : List Descriptor) : Laws.MatchesRow.Statement (.aiBuild objs) :=
  ⟨_, row_mem 33 (by decide), rfl, pack_matches (mf := 0xF) (mg := 0xF) (mi := (BitVec.allOnes 16 <<< 8)) rfl rfl BitVec.zero_and BitVec.zero_and (low_and_high _)⟩

theorem Laws.MatchesRow.aiLookup (a : Half) : Laws.MatchesRow.Statement (.aiLookup a) :=
  ⟨_, row_mem 34 (by decide), rfl, pack_matches (mf := 0xF) (mg := 0xF) (mi := 0x0000) rfl rfl BitVec.zero_and BitVec.zero_and BitVec.and_zero⟩

end Sys2Proof
end

