-- ==== Sys2Proof/Laws/Table.lean ====
section
/-! SUPPORT. Laws of the index table's insertion: what it lists, that it stays ascending, what a lookup then finds. -/

namespace Sys2Proof.Machine

theorem Table.mem_insertNew {t : List Pair} {p q : Pair} (h : q ∈ Table.insertNew t p) : q = p ∨ q ∈ t := by
  induction t with
  | nil => simpa [Table.insertNew] using h
  | cons r t ih =>
    unfold Table.insertNew at h
    split at h
    · simpa using h
    · split at h
      · exact .inr h
      · rcases List.mem_cons.mp h with rfl | h
        · simp
        · rcases ih h with rfl | h <;> simp [*]

theorem Table.insertNew_sorted (t : List Pair) (p : Pair) (h : t.Pairwise fun a b => a.addr < b.addr) :
    (Table.insertNew t p).Pairwise fun a b => a.addr < b.addr := by
  induction t with
  | nil => simp [Table.insertNew]
  | cons r t ih =>
    have hr : ∀ q ∈ t, r.addr < q.addr := fun q hq => List.rel_of_pairwise_cons h hq
    unfold Table.insertNew
    split
    · rename_i hlt
      refine List.pairwise_cons.mpr ⟨fun q hq => ?_, h⟩
      rcases List.mem_cons.mp hq with rfl | hq
      · exact hlt
      · exact BitVec.lt_trans hlt (hr q hq)
    · split
      · exact h
      · rename_i hnlt hne
        refine List.pairwise_cons.mpr ⟨fun q hq => ?_, ih h.of_cons⟩
        rcases Table.mem_insertNew hq with rfl | hq
        · have : ¬ q.addr = r.addr := hne
          bv_omega
        · exact hr q hq

theorem Table.length_insertNew (t : List Pair) (p : Pair) : (Table.insertNew t p).length ≤ t.length + 1 := by
  induction t with
  | nil => simp [Table.insertNew]
  | cons r t ih => unfold Table.insertNew; split <;> [simp; (split <;> simp [ih])]

/-- A lookup finds nothing below an ascending table's first address. -/
theorem Table.lookup_of_forall_ne (t : List Pair) (a : Half) (h : ∀ p ∈ t, p.addr ≠ a) : Table.lookup t a = none := by
  induction t with
  | nil => rfl
  | cons r t ih =>
    simp [Table.lookup, h r (by simp), ih fun p hp => h p (by simp [hp])]

/-- Insertion keeps the pair that is there: the first index in wins (R183). -/
theorem Table.lookup_insertNew (t : List Pair) (p : Pair) (a : Half) (h : t.Pairwise fun a b => a.addr < b.addr) :
    Table.lookup (Table.insertNew t p) a =
      if a = p.addr then some ((Table.lookup t a).getD p.idx) else Table.lookup t a := by
  induction t with
  | nil => simp [Table.insertNew, Table.lookup, eq_comm]
  | cons r t ih =>
    have hr : ∀ q ∈ t, r.addr < q.addr := fun q hq => List.rel_of_pairwise_cons h hq
    unfold Table.insertNew
    split
    · rename_i hlt
      by_cases ha : a = p.addr
      · subst ha
        have hnone : Table.lookup (r :: t) p.addr = none := Table.lookup_of_forall_ne _ _ fun q hq => by
          rcases List.mem_cons.mp hq with rfl | hq
          · bv_omega
          · have := hr q hq; bv_omega
        rw [hnone]; simp [Table.lookup]
      · rw [if_neg ha]; simp [Table.lookup, Ne.symm ha]
    · split
      · rename_i _ heq
        by_cases ha : a = p.addr
        · simp [Table.lookup, ha, heq]
        · simp [ha]
      · rename_i _ hne
        by_cases har : r.addr = a
        · have hap : a ≠ p.addr := fun e => hne (e ▸ har.symm)
          simp [Table.lookup, har, hap]
        · simp [Table.lookup, har, ih h.of_cons]

/-- In an ascending table, the pairs are exactly what lookups find (R184 (c)). -/
theorem Table.lookup_eq_some (t : List Pair) (a : Half) (i : Byte) (h : t.Pairwise fun a b => a.addr < b.addr) :
    Table.lookup t a = some i ↔ (⟨a, i⟩ : Pair) ∈ t := by
  induction t with
  | nil => simp [Table.lookup]
  | cons r t ih =>
    have hr : ∀ q ∈ t, r.addr < q.addr := fun q hq => List.rel_of_pairwise_cons h hq
    by_cases ha : r.addr = a
    · have hno : (⟨a, i⟩ : Pair) ∉ t := fun hm => by have := hr _ hm; simp only [ha] at this; bv_omega
      simp only [Table.lookup, ha, if_true, List.mem_cons, hno, or_false, Option.some.injEq]
      constructor
      · rintro rfl; cases r; simp_all
      · intro e; rw [← e]
    · have hne : (⟨a, i⟩ : Pair) ≠ r := fun e => ha (by rw [← e])
      simp [Table.lookup, ha, ih h.of_cons, hne]

theorem Table.buildFrom_sorted (t : List Pair) (i : Nat) (objs : List Descriptor)
    (h : t.Pairwise fun a b => a.addr < b.addr) :
    (Table.buildFrom t i objs).Pairwise fun a b => a.addr < b.addr := by
  induction objs generalizing t i with
  | nil => exact h
  | cons d ds ih =>
    refine ih _ _ ?_
    split
    · exact Table.insertNew_sorted _ _ h
    · exact h

theorem Table.length_buildFrom (t : List Pair) (i : Nat) (objs : List Descriptor) :
    (Table.buildFrom t i objs).length ≤ t.length + objs.length := by
  induction objs generalizing t i with
  | nil => simp [Table.buildFrom]
  | cons d ds ih =>
    refine (ih _ _).trans ?_
    have := Table.length_insertNew t ⟨d.addr, BitVec.ofNat 8 i⟩
    split <;> simp only [List.length_cons] <;> omega

end Sys2Proof.Machine
end

