-- ==== Sys2Proof/Tests/Slice0.lean ====
section
/-! SUPPORT. Tests.  Words and expected results are those spec/95_test_vectors.md writes out (section numbers in the comments),
or an encoding line of files 40 to 44 filled in by hand; none comes from this model.  The last part gives each statement of
Certificates/Slice0/Obligations.lean that has hypotheses a concrete state and operands that meet them. -/

namespace Sys2Proof.Tests

open Sys2Proof.Machine

/-- A block with two slots and a queue of capacity 3, right after reset. -/
def fresh : State := State.init { aqCapacity := 3 }

/-- The same with bytes in slot 0 from offset 0 on. -/
def loaded (bs : List Byte) : State := fresh.setBytes 0 0 bs

/-- One transaction on the port. -/
def present (w : Word) (b : List Byte) (s : State) : State := { s with input := [.command w b] }

/-- The response of a step, word and burst. -/
def answerOf (o : Host.Outcome State Fault Refusal) : Option (Word × List Byte) :=
  match o with
  | .next t => t.response.map fun r => (r.word, r.burst)
  | .fault _ => none
  | .refused _ => none

/-- The response word of a step, and bytes of slot f after it. -/
def slotOf (f n : Nat) (o : Host.Outcome State Fault Refusal) : Option (Word × List Byte) :=
  match o with
  | .next t => t.response.map fun r => (r.word, t.bytes f 0 n)
  | .fault _ => none
  | .refused _ => none

/-- Why a word with no burst is no command. -/
def errorOf (w : Word) : Option DecodeError :=
  match decode w [] with
  | .error e => some e
  | .ok _ => none

/-! ## WellFormed refuses: one ill-formed term for each check -/

theorem test_wellformed_refuses_setlp_256 : ¬ (Instr.tcSetlp 0 (List.replicate 256 0)).WellFormed := by
  show ¬ List.length _ ≤ 255; rw [List.length_replicate]; decide

theorem test_wellformed_refuses_append_16 : ¬ (Instr.aqAppend 0 0 0 (List.replicate 16 0)).WellFormed := by simp

theorem test_wellformed_refuses_build_256 : ¬ (Instr.aiBuild (List.replicate 256 ⟨0, 1⟩)).WellFormed := by
  show ¬ List.length _ ≤ 255; rw [List.length_replicate]; decide

/-! ## Decoding: a word of every command, from the spec's encodings -/

theorem test_decode_tcClear : decode 0x00000000 [] = .ok (.tcClear 0) := by rfl

theorem test_decode_tcSetpri : decode 0x01000001 [] = .ok (.tcSetpri 0 1) := by rfl

theorem test_decode_tcGetpri : decode 0x02000000 [] = .ok (.tcGetpri 0) := by rfl

theorem test_decode_tcSetrep : decode 0x03000000 [] = .ok (.tcSetrep 0) := by rfl

theorem test_decode_tcSetsrc : decode 0x04001203 [] = .ok (.tcSetsrc 0 0x1203) := by rfl

theorem test_decode_tcGetsrc : decode 0x05F00000 [] = .ok (.tcGetsrc 15) := by rfl

theorem test_decode_tcSetdst : decode 0x0600FFFE [] = .ok (.tcSetdst 0 0xFFFE) := by rfl

theorem test_decode_tcGetdst : decode 0x07000000 [] = .ok (.tcGetdst 0) := by rfl

theorem test_decode_tcSetmc : decode 0x08000001 [] = .ok (.tcSetmc 0 1) := by rfl

theorem test_decode_tcIsmc : decode 0x09000000 [] = .ok (.tcIsmc 0) := by rfl

theorem test_decode_tcSethop : decode 0x0A000007 [] = .ok (.tcSethop 0 7) := by rfl

theorem test_decode_tcGethop : decode 0x0B000000 [] = .ok (.tcGethop 0) := by rfl

theorem test_decode_tcSetlen : decode 0x0C00000F [] = .ok (.tcSetlen 0 15) := by rfl

theorem test_decode_tcGetlen : decode 0x0D100000 [] = .ok (.tcGetlen 1) := by rfl

theorem test_decode_tcSetcmd : decode 0x0E00000A [] = .ok (.tcSetcmd 0 10) := by rfl

theorem test_decode_tcGetcmd : decode 0x0F000000 [] = .ok (.tcGetcmd 0) := by rfl

theorem test_decode_tcSetfpb : decode 0x1000003F [] = .ok (.tcSetfpb 0 0x3F) := by rfl

theorem test_decode_tcClrfpb : decode 0x11000000 [] = .ok (.tcClrfpb 0) := by rfl

theorem test_decode_tcGetfpb : decode 0x12000000 [] = .ok (.tcGetfpb 0) := by rfl

theorem test_decode_tcSetlp : decode 0x13000003 [0xDE, 0xAD, 0x42] = .ok (.tcSetlp 0 [0xDE, 0xAD, 0x42]) := by rfl

theorem test_decode_tcGetlp : decode 0x140000FF [] = .ok (.tcGetlp 0 255) := by rfl

theorem test_decode_tcClrlp : decode 0x15000000 [] = .ok (.tcClrlp 0) := by rfl

theorem test_decode_tcCalcchk : decode 0x16000000 [] = .ok (.tcCalcchk 0) := by rfl

theorem test_decode_tcUpdchk : decode 0x17000000 [] = .ok (.tcUpdchk 0) := by rfl

theorem test_decode_tcValidate : decode 0x18100000 [] = .ok (.tcValidate 1) := by rfl

theorem test_decode_tcCopy : decode 0x19020000 [] = .ok (.tcCopy 0 2) := by rfl

theorem test_decode_tcCopyhdr : decode 0x1A100000 [] = .ok (.tcCopyhdr 1 0) := by rfl

theorem test_decode_tcTlen : decode 0x1B000000 [] = .ok (.tcTlen 0) := by rfl

theorem test_decode_tcRdbyte : decode 0x1C000017 [] = .ok (.tcRdbyte 0 23) := by rfl

theorem test_decode_tcWrbyte : decode 0x1D100560 [] = .ok (.tcWrbyte 1 5 0x60) := by rfl

theorem test_decode_aqAppend : decode 0x40220700 [0x0C, 0x1A] = .ok (.aqAppend 2 7 0 [0x0C, 0x1A]) := by rfl

theorem test_decode_aqPop : decode 0x41000000 [] = .ok (.aqPop) := by rfl

theorem test_decode_aqLost : decode 0x42000000 [] = .ok (.aqLost) := by rfl

theorem test_decode_aiBuild : decode 0x50000002 [0x09, 0x01, 0x01, 0x0A, 0x00, 0xFE] = .ok (.aiBuild [⟨0x0901, 0x01⟩, ⟨0x0A00, 0xFE⟩]) := by rfl

theorem test_decode_aiLookup : decode 0x51000901 [] = .ok (.aiLookup 0x0901) := by rfl

/-- Section 2.9. -/
theorem test_decode_unassigned_opcodes : [0x1E000000, 0x3F000000, 0x43000000, 0x52000000, 0xFFFFFFFF].map errorOf =
    List.replicate 5 (some .unknownOpcode) := by rfl

/-- Section 2.9. -/
theorem test_decode_reserved_bits : [0x00000001, 0x00010000, 0x01000004, 0x0A000008, 0x10000040, 0x13000100, 0x1D002000, 0x19001000, 0x41000001, 0x40040000, 0x50000100, 0x51010000, 0x0C500010].map errorOf =
    List.replicate 13 (some .reservedBits) := by rfl

/-- The number layout of spec/opcode_table.json: the word in bits 31:0, burst bytes after it, zeros above nbits. -/
theorem test_decodeTableWord : decodeTableWord 32 0x40220700 = some (.aqAppend 2 7 0 [0, 0]) ∧
    decodeTableWord 48 0x1A0C40220700 = some (.aqAppend 2 7 0 [0x0C, 0x1A]) ∧ decodeTableWord 32 0x1E000000 = none := by decide

/-- A word placed at the fetch after reset runs: TC.CALCCHK 0 answers 0xA2 (section 1.1). -/
theorem test_withFetchWord : answerOf (step (State.reset.withFetchWord 32 0x16000000)) = some (0xA2, []) := by decide

/-! ## One step of each command -/

/-- Section 2.1. -/
theorem test_clear : slotOf 0 9 (step (present 0x00000000 [] (loaded [0x9C, 0x00, 0x00, 0xFF, 0xFE, 0xF1, 0x01, 0x02, 0x03]))) =
    some (0x00000000, [0xBC, 0x00, 0x00, 0x00, 0x00, 0xE1, 0x00, 0x00, 0x00]) := by decide

/-- Section 2.1: TC.CLEAR 2. -/
theorem test_clear_no_slot : answerOf (step (present 0x00200000 [] (fresh))) = some (0x90000000, []) := by decide

/-- Section 2.1. -/
theorem test_setpri : slotOf 0 9 (step (present 0x01000001 [] (fresh))) =
    some (0x00000000, [0xB4, 0x00, 0x00, 0x00, 0x00, 0xE1, 0x00, 0x00, 0x00]) := by decide

/-- Section 2.1. -/
theorem test_getpri : answerOf (step (present 0x02000000 [] (loaded [0xB4]))) = some (0x00000001, []) := by decide

/-- Section 2.1. -/
theorem test_setrep : slotOf 0 9 (step (present 0x03000000 [] (fresh))) =
    some (0x00000000, [0x9C, 0x00, 0x00, 0x00, 0x00, 0xE1, 0x00, 0x00, 0x00]) := by decide

/-- Section 2.1: high byte first. -/
theorem test_setsrc : slotOf 0 9 (step (present 0x04001203 [] (loaded [0x9C]))) =
    some (0x00000000, [0x9C, 0x12, 0x03, 0x00, 0x00, 0xE1, 0x00, 0x00, 0x00]) := by decide

/-- Section 2.1. -/
theorem test_getsrc : answerOf (step (present 0x05000000 [] (loaded [0x9C, 0x12, 0x03]))) = some (0x00001203, []) := by decide

/-- Section 2.1. -/
theorem test_setdst : slotOf 0 9 (step (present 0x0600FFFE [] (loaded [0x9C, 0x12, 0x03]))) =
    some (0x00000000, [0x9C, 0x12, 0x03, 0xFF, 0xFE, 0xE1, 0x00, 0x00, 0x00]) := by decide

/-- Section 2.1. -/
theorem test_getdst : answerOf (step (present 0x07000000 [] (loaded [0x9C, 0x12, 0x03, 0xFF, 0xFE]))) = some (0x0000FFFE, []) := by decide

/-- Section 2.1. -/
theorem test_setmc : slotOf 0 9 (step (present 0x08000000 [] (loaded [0x9C, 0x00, 0x00, 0xFF, 0xFE, 0xE1]))) =
    some (0x00000000, [0x9C, 0x00, 0x00, 0xFF, 0xFE, 0x61, 0x00, 0x00, 0x00]) := by decide

/-- Section 2.1. -/
theorem test_ismc : answerOf (step (present 0x09000000 [] (loaded [0x9C, 0x00, 0x00, 0xFF, 0xFE, 0x61]))) = some (0x00000000, []) := by decide

/-- Section 2.1. -/
theorem test_sethop : slotOf 0 9 (step (present 0x0A000007 [] (loaded [0x9C, 0x00, 0x00, 0xFF, 0xFE, 0x01]))) =
    some (0x00000000, [0x9C, 0x00, 0x00, 0xFF, 0xFE, 0x71, 0x00, 0x00, 0x00]) := by decide

/-- Section 2.1. -/
theorem test_gethop : answerOf (step (present 0x0B000000 [] (fresh))) = some (0x00000006, []) := by decide

/-- Section 2.1. -/
theorem test_setlen : slotOf 0 11 (step (present 0x0C000003 [] (loaded [0x9C, 0x00, 0x00, 0xFF, 0xFE, 0xF1]))) =
    some (0x00000000, [0x9C, 0x00, 0x00, 0xFF, 0xFE, 0xF3, 0x00, 0x00, 0x00, 0x00, 0x00]) := by decide

/-- Section 2.1: refused, nothing written. -/
theorem test_setlen_zero : slotOf 0 11 (step (present 0x0C000000 [] (loaded [0x9C, 0x00, 0x00, 0xFF, 0xFE, 0xF3]))) =
    some (0x90000000, [0x9C, 0x00, 0x00, 0xFF, 0xFE, 0xF3, 0x00, 0x00, 0x00, 0x00, 0x00]) := by decide

/-- Section 2.1. -/
theorem test_getlen : answerOf (step (present 0x0D000000 [] (loaded [0x9C, 0x00, 0x00, 0xFF, 0xFE, 0xF3]))) = some (0x00000003, []) := by decide

/-- Section 2.2: bits 7:2 of offset 6 stay. -/
theorem test_setcmd : slotOf 0 9 (step (present 0x0E00000F [] (loaded [0xBC, 0x00, 0x00, 0x00, 0x00, 0xE1, 0xFC, 0x40]))) =
    some (0x00000000, [0xBC, 0x00, 0x00, 0x00, 0x00, 0xE1, 0xFF, 0xC0, 0x00]) := by decide

/-- Section 2.2. -/
theorem test_setcmd_keeps_payload : slotOf 0 9 (step (present 0x0E000001 [] (loaded [0xBC, 0x00, 0x00, 0x00, 0x00, 0xE1, 0x02, 0x81]))) =
    some (0x00000000, [0xBC, 0x00, 0x00, 0x00, 0x00, 0xE1, 0x00, 0x41, 0x00]) := by decide

/-- Section 2.2. -/
theorem test_getcmd : answerOf (step (present 0x0F000000 [] (loaded [0xBC, 0x00, 0x00, 0x00, 0x00, 0xE1, 0x02, 0xBF]))) = some (0x0000000A, []) := by decide

/-- Section 2.2: replaced, not merged. -/
theorem test_setfpb : slotOf 0 9 (step (present 0x10000001 [] (loaded [0xBC, 0x00, 0x00, 0x00, 0x00, 0xE1, 0x02, 0xBF]))) =
    some (0x00000000, [0xBC, 0x00, 0x00, 0x00, 0x00, 0xE1, 0x02, 0x81, 0x00]) := by decide

/-- Section 2.2. -/
theorem test_clrfpb : slotOf 0 9 (step (present 0x11000000 [] (loaded [0xBC, 0x00, 0x00, 0x00, 0x00, 0xE1, 0x00, 0x41]))) =
    some (0x00000000, [0xBC, 0x00, 0x00, 0x00, 0x00, 0xE1, 0x00, 0x40, 0x00]) := by decide

/-- Section 2.2. -/
theorem test_getfpb : answerOf (step (present 0x12000000 [] (loaded [0xBC, 0x00, 0x00, 0x00, 0x00, 0xE1, 0x02, 0xBF]))) = some (0x0000003F, []) := by decide

/-- Section 2.2, clamping. -/
theorem test_setlp_clamps : slotOf 0 23 (step (present 0x13000014 [1, 2, 3, 4, 5, 6, 7, 8, 9, 10, 11, 12, 13, 14, 15, 16, 17, 18, 19, 20] (fresh.setByte 0 22 0xEE))) =
    some (0x00000000, [0xBC, 0x00, 0x00, 0x00, 0x00, 0xE1, 0x00, 0x00, 0x01, 0x02, 0x03, 0x04, 0x05, 0x06, 0x07, 0x08, 0x09, 0x0A, 0x0B, 0x0C, 0x0D, 0x0E, 0xEE]) := by decide

/-- Section 2.2: the burst is taken and dropped. -/
theorem test_setlp_bad_slot : slotOf 0 10 (step (present 0x13500002 [0xAA, 0xBB] (fresh))) =
    some (0x90000000, [0xBC, 0x00, 0x00, 0x00, 0x00, 0xE1, 0x00, 0x00, 0x00, 0x00]) := by decide

/-- Section 2.2: whatever lies there. -/
theorem test_getlp : answerOf (step (present 0x14000003 [] (loaded [0xBC, 0x00, 0x00, 0x00, 0x00, 0xE3, 0x00, 0x00, 0x0C, 0x1A, 0xB6]))) = some (0x00000000, [0x0C, 0x1A, 0xB6]) := by decide

/-- Section 2.2, clamping. -/
theorem test_getlp_clamps : answerOf (step (present 0x140000FF [] (loaded [0xBC, 0x00, 0x00, 0x00, 0x00, 0xE1, 0x00, 0x00, 0x01, 0x02, 0x03, 0x04, 0x05, 0x06, 0x07, 0x08, 0x09, 0x0A, 0x0B, 0x0C, 0x0D, 0x0E, 0xEE]))) = some (0x00000000, [1, 2, 3, 4, 5, 6, 7, 8, 9, 10, 11, 12, 13, 14]) := by decide

/-- Section 2.2. -/
theorem test_clrlp : slotOf 0 11 (step (present 0x15000000 [] (loaded [0xBC, 0x00, 0x00, 0x00, 0x00, 0xE3, 0x00, 0x00, 0x0C, 0x1A, 0xB6]))) =
    some (0x00000000, [0xBC, 0x00, 0x00, 0x00, 0x00, 0xE3, 0x00, 0x00, 0x00, 0x00, 0x00]) := by decide

/-- Section 2.3: L = 15, 22 covered bytes. -/
theorem test_calcchk_all_ones : answerOf (step (present 0x16000000 [] (loaded (List.replicate 22 0xFF)))) = some (0x000000FF, []) := by decide

/-- Section 2.3: L = 0. -/
theorem test_calcchk_length_zero : answerOf (step (present 0x16000000 [] (loaded [0xFF, 0xFF, 0xFF, 0xFF, 0xFF, 0xF0, 0xFF]))) = some (0x0000000F, []) := by decide

/-- Section 2.3. -/
theorem test_updchk : slotOf 0 11 (step (present 0x17000000 [] (loaded [0xBC, 0x00, 0x00, 0x00, 0x00, 0xE3, 0x00, 0x40, 0x0C, 0x1A]))) =
    some (0x00000000, [0xBC, 0x00, 0x00, 0x00, 0x00, 0xE3, 0x00, 0x40, 0x0C, 0x1A, 0xF6]) := by decide

/-- Section 2.3: the slot is offset 7. -/
theorem test_updchk_length_zero : slotOf 0 9 (step (present 0x17000000 [] (loaded [0xFF, 0xFF, 0xFF, 0xFF, 0xFF, 0xF0, 0xFF]))) =
    some (0x00000000, [0xFF, 0xFF, 0xFF, 0xFF, 0xFF, 0xF0, 0xFF, 0x0F, 0x00]) := by decide

/-- Section 2.5: one failing check at a time. -/
theorem test_validate : ∀ p ∈ ([
    ([0xBC, 0x11, 0x01, 0x09, 0x01, 0xE1, 0x00, 0x81, 0x3B], 0),
    ([0xAC, 0x11, 0x01, 0x09, 0x01, 0xE1, 0x00, 0x81, 0x2B], 1),
    ([0xBD, 0x11, 0x01, 0x09, 0x01, 0xE1, 0x00, 0x81, 0x3A], 1),
    ([0xBE, 0x11, 0x01, 0x09, 0x01, 0xE1, 0x00, 0x81, 0x39], 1),
    ([0x3C, 0x11, 0x01, 0x09, 0x01, 0xE1, 0x00, 0x81, 0xBB], 2),
    ([0xFC, 0x11, 0x01, 0x09, 0x01, 0xE1, 0x00, 0x81, 0x7B], 2),
    ([0xBC, 0x11, 0x01, 0x09, 0x01, 0xE0, 0x00, 0xBB], 3),
    ([0xBC, 0x11, 0x01, 0x09, 0x01, 0xE1, 0x40, 0x81, 0x7B], 4),
    ([0xBC, 0x11, 0x01, 0x09, 0x01, 0xE1, 0x00, 0x81, 0x3C], 5),
    ([0xBC, 0x11, 0x01, 0x09, 0x01, 0xE1, 0x00, 0xC1, 0x7B], 6),
    ([0xBC, 0x11, 0x01, 0x09, 0x01, 0xE1, 0x01, 0x01, 0xBA], 6),
    ([0xBC, 0x11, 0x01, 0x09, 0x01, 0xE1, 0x02, 0x81, 0x39], 0),
    ([0xBC, 0x11, 0x01, 0x09, 0x01, 0xE1, 0x3C, 0x81, 0x07], 0),
    ([0x9C, 0x11, 0x01, 0x09, 0x01, 0xE1, 0x00, 0x81, 0x1B], 0)] : List (List Byte × Word)),
    answerOf (step (present 0x18000000 [] (loaded p.1))) = some (p.2, []) := by decide

/-- Section 2.6: several checks fail at once. -/
theorem test_validate_precedence : ∀ p ∈ ([
    ([0x3D, 0x11, 0x01, 0x09, 0x01, 0xE1, 0x00, 0x81, 0xBA], 1),
    ([0x3C, 0x11, 0x01, 0x09, 0x01, 0xE0, 0x00, 0x3B], 2),
    ([0xBC, 0x11, 0x01, 0x09, 0x01, 0xE0, 0x80, 0x3B], 3),
    ([0xBC, 0x11, 0x01, 0x09, 0x01, 0xE1, 0x80, 0x81, 0xBC], 4),
    ([0xBC, 0x11, 0x01, 0x09, 0x01, 0xE1, 0x00, 0xC1, 0x7C], 5),
    ([0x3D, 0x11, 0x01, 0x09, 0x01, 0xE0, 0x80, 0xC1], 1),
    ([0x3C, 0x11, 0x01, 0x09, 0x01, 0xE0, 0x80, 0xC1], 2),
    ([0xBC, 0x11, 0x01, 0x09, 0x01, 0xE1, 0x80, 0xC1, 0xFC], 4)] : List (List Byte × Word)),
    answerOf (step (present 0x18000000 [] (loaded p.1))) = some (p.2, []) := by decide

/-- Section 2.4: slot 1 after. -/
theorem test_copy : slotOf 1 23 (step (present 0x19100000 [] (loaded [0xBC, 0x11, 0x01, 0x09, 0x01, 0xE3, 0x00, 0x40, 0x0C, 0x1A, 0xEE, 0x00, 0x00, 0x00, 0x00, 0x00, 0x00, 0x00, 0x00, 0x00, 0x00, 0x00, 0x99]))) =
    some (0x00000000, [0xBC, 0x11, 0x01, 0x09, 0x01, 0xE3, 0x00, 0x40, 0x0C, 0x1A, 0xEE, 0x00, 0x00, 0x00, 0x00, 0x00, 0x00, 0x00, 0x00, 0x00, 0x00, 0x00, 0x99]) := by decide

/-- Section 2.4. -/
theorem test_copy_no_source : answerOf (step (present 0x19020000 [] (fresh))) = some (0x90000000, []) := by decide

/-- Section 2.4: slot 1 after. -/
theorem test_copyhdr : slotOf 1 23 (step (present 0x1A100000 [] (loaded [0xBC, 0x11, 0x01, 0x09, 0x01, 0xE3, 0x00, 0x40, 0x0C, 0x1A, 0xEE, 0x00, 0x00, 0x00, 0x00, 0x00, 0x00, 0x00, 0x00, 0x00, 0x00, 0x00, 0x99]))) =
    some (0x00000000, [0xBC, 0x11, 0x01, 0x09, 0x01, 0xE3, 0x00, 0x00, 0x00, 0x00, 0x00, 0x00, 0x00, 0x00, 0x00, 0x00, 0x00, 0x00, 0x00, 0x00, 0x00, 0x00, 0x00]) := by decide

/-- Section 1.8. -/
theorem test_tlen : answerOf (step (present 0x1B000000 [] (loaded [0xBC, 0x00, 0x00, 0x00, 0x00, 0xEF]))) = some (0x00000017, []) := by decide

/-- Section 2.2. -/
theorem test_tlen_length_zero : answerOf (step (present 0x1B000000 [] (loaded [0xBC, 0x00, 0x00, 0x00, 0x00, 0x60]))) = some (0x00000008, []) := by decide

/-- Section 2.2. -/
theorem test_rdbyte : answerOf (step (present 0x1C000005 [] (loaded [0xBC, 0x00, 0x00, 0x00, 0x00, 0xE3]))) = some (0x000000E3, []) := by decide

/-- Section 2.2: offset 23. -/
theorem test_rdbyte_above : answerOf (step (present 0x1C000017 [] (fresh))) = some (0x90000000, []) := by decide

/-- Section 2.2. -/
theorem test_wrbyte : slotOf 0 23 (step (present 0x1D001677 [] (fresh))) =
    some (0x00000000, [0xBC, 0x00, 0x00, 0x00, 0x00, 0xE1, 0x00, 0x00, 0x00, 0x00, 0x00, 0x00, 0x00, 0x00, 0x00, 0x00, 0x00, 0x00, 0x00, 0x00, 0x00, 0x00, 0x77]) := by decide

/-- Section 2.2: offset 23. -/
theorem test_wrbyte_above : slotOf 0 23 (step (present 0x1D001777 [] (fresh))) =
    some (0x90000000, [0xBC, 0x00, 0x00, 0x00, 0x00, 0xE1, 0x00, 0x00, 0x00, 0x00, 0x00, 0x00, 0x00, 0x00, 0x00, 0x00, 0x00, 0x00, 0x00, 0x00, 0x00, 0x00, 0x00]) := by decide

/-- Section 1.7: the entries A, B, C of a full queue of capacity 3, and D. -/
def entryA : Entry := ⟨.writeRequest, 1, 0x0A, []⟩
def entryB : Entry := ⟨.writeRequest, 2, 0x0B, []⟩
def entryC : Entry := ⟨.readRequest, 3, 0, []⟩
def entryD : Entry := ⟨.responseRequest, 4, 0, [0x0D, 0x0D]⟩

/-- Section 1.7: appending D evicts A. -/
theorem test_append_evicts : ((match step (present 0x40220400 [0x0D, 0x0D] { fresh with queue := [entryA, entryB, entryC] }) with
    | .next t => some (t.queue, t.lost)
    | .fault _ => none
    | .refused _ => none) : Option (List Entry × BitVec 16)) = some ([entryB, entryC, entryD], 1) := by decide

/-- Section 2.7. -/
theorem test_append_kind_3 : answerOf (step (present 0x40030101 [] (fresh))) = some (0x90000000, []) := by decide

/-- Section 1.7. -/
theorem test_pop : answerOf (step (present 0x41000000 [] ({ fresh with queue := [entryD] }))) = some (0x00220400, [0x0D, 0x0D]) := by decide

/-- Section 1.7. -/
theorem test_pop_empty : answerOf (step (present 0x41000000 [] (fresh))) = some (0x10000000, []) := by decide

/-- Section 2.7. -/
theorem test_lost : answerOf (step (present 0x42000000 [] ({ fresh with lost := 2 }))) = some (0x00000002, []) := by decide

/-- Section 2.7, saturation: 0xFFFF stays. -/
theorem test_lost_saturates : bumpLost fresh.cfg 0xFFFE = 0xFFFF ∧ bumpLost fresh.cfg 0xFFFF = 0xFFFF := by decide

/-- R145: the masks can be re-pointed.  With CTRL_PATTERN_MASK 0x03 and value 0x00, section 2.5's 0xAC (bit 4 cleared) passes
check 1, and with R5's it does not. -/
theorem test_pattern_mask_repointed : controlOk { fresh.cfg with ctrlPatternMask := 0x03, ctrlPatternValue := 0x00 } 0xAC = true ∧
    controlOk fresh.cfg 0xAC = false := by decide

/-- Section 2.8. -/
theorem test_build : ((match step (present 0x50000006 [0x09, 0x01, 0x01, 0x0A, 0x00, 0x00, 0x08, 0x02, 0x01, 0x09, 0x01, 0x01,
      0x0A, 0x00, 0xFE, 0xFF, 0xFF, 0xFF] fresh) with
    | .next t => some t.table
    | .fault _ => none
    | .refused _ => none) : Option (List Pair)) = some [⟨0x0802, 2⟩, ⟨0x0901, 0⟩, ⟨0xFFFF, 5⟩] := by decide

/-- Section 2.8. -/
theorem test_lookup : answerOf (step (present 0x51000802 [] ({ fresh with table := [⟨0x0802, 2⟩, ⟨0x0901, 0⟩, ⟨0xFFFF, 5⟩] }))) = some (0x00000002, []) := by decide

/-- Section 2.8: no nearest match. -/
theorem test_lookup_absent : answerOf (step (present 0x51000900 [] ({ fresh with table := [⟨0x0802, 2⟩, ⟨0x0901, 0⟩, ⟨0xFFFF, 5⟩] }))) = some (0x20000000, []) := by decide

/-- Section 2.9. -/
theorem test_illegal : answerOf (step (present 0xFF000000 [] (fresh))) = some (0x80000000, []) := by decide

/-! ## Witnesses: for each statement with hypotheses, a state and operands that meet them together -/

/-- A state in use: the valid frame of section 2.4 in slot 0, a full queue, a loss counted, two pairs in the table, events
waiting and a response on the port. -/
def busy : State :=
  { loaded [0xBC, 0x11, 0x01, 0x09, 0x01, 0xE3, 0x00, 0x40, 0x0C, 0x1A, 0xEE] with
    cfg := { aqCapacity := 2 }
    queue := [entryD, ⟨.writeRequest, 255, 0xFF, [0xA0, 0xA1, 0xA2, 0xA3, 0xA4, 0xA5, 0xA6, 0xA7, 0xA8, 0xA9, 0xAA, 0xAB, 0xAC, 0xAD]⟩]
    lost := 1
    table := [⟨0x0802, 2⟩, ⟨0xFFFF, 5⟩]
    input := [.command 0x40010501 [], .reset]
    response := some ⟨.ok, 0, 3, []⟩ }

theorem witness_DecodeOfEncodeGivesInstructionBack :
    (Instr.tcSetlp 15 (List.replicate 255 0xFF)).WellFormed ∧ (Instr.aqAppend 3 255 255 (List.replicate 15 0xFF)).WellFormed ∧
    (Instr.aiBuild (List.replicate 255 ⟨0xFFFF, 0xFF⟩)).WellFormed ∧ (Instr.tcRdbyte 0 31).WellFormed := by
  exact ⟨Nat.le_of_eq List.length_replicate, Nat.le_of_eq List.length_replicate, Nat.le_of_eq List.length_replicate, trivial⟩

theorem witness_EncodeOfDecodeGivesTransactionBack :
    decode 0x40F30000 (List.replicate 15 0) = .ok (.aqAppend 3 0 0 (List.replicate 15 0)) := by rfl

theorem witness_DecodeFollowsOpcodeTable : ∃ r ∈ opcodeTable, r.mnemonic = "TC.SETLP" ∧
    [0x0C, 0x1A].length = announcedBurst 0x13000002 ∧ (0x13000002 : Word) &&& r.mask = r.pattern :=
  ⟨opcodeTable[19], List.getElem_mem _, rfl, rfl, rfl⟩

theorem witness_DecodingIsTotal : [0x0C, 0x1A].length = announcedBurst 0x13000002 ∧
    ([] : List Byte).length = announcedBurst 0x1E000000 := ⟨rfl, rfl⟩

theorem witness_StepRunsDecodedCommand : busy.cfg.wf ∧ busy.input = .command 0x40010501 [] :: [.reset] ∧
    decode 0x40010501 [] = .ok (.aqAppend 1 5 1 []) := ⟨by decide, rfl, rfl⟩

theorem witness_IllegalWordAnswersErrIllegal : (present 0x1E000000 [] busy).cfg.wf ∧
    (∀ op ∈ [0x1E, 0x3F, 0x43, 0x4F, 0x52, 0xFF], (0x1E ≤ op ∧ op ≤ 0x3F) ∨ (0x43 ≤ op ∧ op ≤ 0x4F) ∨ 0x52 ≤ op) ∧
    ∃ r ∈ opcodeTable, (0x00000001 : Word).extractLsb' 24 8 = r.pattern.extractLsb' 24 8 ∧
      (0x00000001 : Word) &&& r.mask ≠ r.pattern :=
  ⟨by decide, by decide, _, .head _, by decide, by decide⟩

theorem witness_MalformedTransactionIsRefused : (present 0x13000002 [0x0C] busy).cfg.wf ∧
    [0x0C].length ≠ announcedBurst 0x13000002 ∧ [0x0C].length ≠ announcedBurst 0x1E000000 ∧
    (∀ c ∈ ([{ nframes := 0, aqCapacity := 1 }, { nframes := 17, aqCapacity := 1 }, { aqCapacity := 0 },
      { aqCapacity := 1, frameBytes := 24 }] : List Config), ¬ (State.init c).cfg.wf) := ⟨by decide, by decide, by decide, by decide⟩

theorem witness_EveryTransactionIsAnswered : { busy with input := [] }.cfg.wf ∧ { busy with input := [.reset] }.cfg.wf ∧
    busy.cfg.wf ∧ busy.input = .command 0x40010501 [] :: [.reset] ∧
    ([] : List Byte).length = announcedBurst 0x40010501 := ⟨by decide, by decide, by decide, rfl, rfl⟩

theorem witness_IdleHoldsAndResetPulseRestores : busy.cfg.wf ∧ { busy with input := [] }.input = [] ∧
    { busy with input := [.reset] }.input = .reset :: [] := ⟨by decide, rfl, rfl⟩

/-- The largest configuration and the smallest. -/
def sixteen : Config := { nframes := 16, aqCapacity := 1 }
def smallest : Config := { nframes := 1, aqCapacity := 1 }

theorem witness_ResetStateIsTheDefaults : sixteen.wf ∧ (15 : Slot).toNat < sixteen.nframes ∧ 22 < 23 ∧ 22 ≠ 0 ∧ 22 ≠ 5 := by
  decide

theorem witness_AnswersRightAfterReset : sixteen.wf ∧ (15 : Slot).toNat < sixteen.nframes ∧
    (sixteen.ctrlPatternMask = 0x13 ∧ sixteen.ctrlPatternValue = 0x10 ∧ sixteen.ctrlFormatMask = 0xC0 ∧
      sixteen.ctrlFormatStandard = 0x80 ∧ sixteen.cmdPatternMask = 0xC0 ∧ sixteen.cmdPatternValue = 0x00) ∧
    (22 : BitVec 5).toNat ≤ 22 ∧ (22 : BitVec 5) ≠ 0 ∧ (22 : BitVec 5) ≠ 5 := by decide

theorem witness_ResetMeetsInvariant : smallest.wf ∧ sixteen.wf := by decide

theorem busy_inv : Inv busy where
  config := by decide
  framesWf := by decide
  framesIn := by decide
  queueFits := by decide
  entriesFit := by decide
  tableSorted := by decide
  tableFits := by decide
  responseFits r h := by cases h; exact ⟨fun h => absurd rfl h, rfl, by decide⟩

theorem witness_StepKeepsInvariant : Inv busy ∧ ∃ t, step busy = .next t := ⟨busy_inv, _, rfl⟩

theorem witness_StatusesAndTheirProducers : fresh.cfg.wf ∧
    (∃ t, exec .aqPop fresh = .next t ∧ t.response = some (bare .empty)) ∧
    (∃ t, exec (.aiLookup 0) fresh = .next t ∧ t.response = some (bare .notFound)) ∧
    (∃ t, exec (.tcClear 2) fresh = .next t ∧ t.response = some (bare .errArg)) ∧
    (∃ t, exec (.tcClear 1) fresh = .next t ∧ t.response = some (bare .ok)) ∧
    (∃ t, step (present 0x1E000000 [] fresh) = .next t ∧ t.response = some ⟨.errIllegal, 0, 0, []⟩) :=
  ⟨by decide, ⟨_, rfl, rfl⟩, ⟨_, rfl, rfl⟩, ⟨_, rfl, rfl⟩, ⟨_, rfl, rfl⟩, ⟨_, rfl, rfl⟩⟩

theorem witness_ErrArgExactlyOnItsCauses : ErrArgCause busy.cfg (.tcClear 2) ∧ ErrArgCause busy.cfg (.tcCopy 0 2) ∧
    ErrArgCause busy.cfg (.tcCopyhdr 2 0) ∧ ErrArgCause busy.cfg (.tcSetlen 0 0) ∧ ErrArgCause busy.cfg (.tcRdbyte 0 23) ∧
    ErrArgCause busy.cfg (.tcWrbyte 0 31 0) ∧ ErrArgCause busy.cfg (.aqAppend 3 0 0 []) ∧
    ErrArgCause busy.cfg (.aqAppend 0 0 0 (List.replicate 15 0)) ∧
    (¬ ErrArgCause busy.cfg (.tcSetlen 1 1) ∧ ∃ t r, exec (.tcSetlen 1 1) busy = .next t ∧ t.response = some r) ∧
    busy.cfg.wf ∧ decode 0x00200000 [] = .ok (.tcClear 2) :=
  ⟨by simp [ErrArgCause, busy], by simp [ErrArgCause, busy], by simp [ErrArgCause, busy], by simp [ErrArgCause],
    by simp [ErrArgCause], by simp [ErrArgCause], by simp [ErrArgCause], by simp [ErrArgCause],
    ⟨by simp [ErrArgCause, busy], _, _, rfl, rfl⟩, by decide, rfl⟩

theorem witness_UnitsShareNoState : (IsTc (.tcUpdchk 0) ∧ ∃ t, exec (.tcUpdchk 0) busy = .next t) ∧
    (IsAq .aqPop ∧ ∃ t, exec .aqPop busy = .next t) ∧ (IsAi (.aiBuild []) ∧ ∃ t, exec (.aiBuild []) busy = .next t) :=
  ⟨⟨trivial, _, rfl⟩, ⟨.inr (.inl rfl), _, rfl⟩, ⟨.inl ⟨_, rfl⟩, _, rfl⟩⟩

/-- busy and a state that agrees with it on one unit only. -/
theorem witness_UnitsLearnNothingOfOthers :
    (∃ t t', IsTc (.tcUpdchk 0) ∧ exec (.tcUpdchk 0) busy = .next t ∧
      exec (.tcUpdchk 0) { busy with queue := [], lost := 0, table := [] } = .next t') ∧
    (∃ t t', IsAq .aqPop ∧ exec .aqPop busy = .next t ∧
      exec .aqPop { busy with frames := [], table := [] } = .next t') ∧
    (∃ t t', IsAi (.aiLookup 0x0802) ∧ exec (.aiLookup 0x0802) busy = .next t ∧
      exec (.aiLookup 0x0802) { busy with frames := [], queue := [], lost := 0 } = .next t') :=
  ⟨⟨_, _, trivial, rfl, rfl⟩, ⟨_, _, .inr (.inl rfl), rfl, rfl⟩, ⟨_, _, .inr ⟨_, rfl⟩, rfl, rfl⟩⟩

theorem witness_ReadsHaveNoSideEffect : IsGetter (.tcValidate 15) ∧ IsGetter .aqLost ∧ IsGetter (.aiLookup 0) :=
  ⟨trivial, trivial, trivial⟩

theorem witness_TcWritesOnlyItsSlot : busy.cfg.wf ∧ IsTc (.tcCopy 1 0) ∧ (encodeWord (.tcCopy 1 0)).extractLsb' 20 4 = 1 ∧
    (∃ t, exec (.tcCopy 1 0) busy = .next t) ∧ ¬ ((1 : Slot).toNat * 23 ≤ 22 ∧ 22 < (1 : Slot).toNat * 23 + 23) ∧
    ¬ ((1 : Slot).toNat * 23 ≤ 46 ∧ 46 < (1 : Slot).toNat * 23 + 23) :=
  ⟨by decide, trivial, rfl, ⟨_, rfl⟩, by decide, by decide⟩

theorem witness_ResponseWordLayout :
    (∃ t r, exec .aqPop busy = .next t ∧ t.response = some r) ∧ (∃ e q, busy.queue = e :: q ∧ e.data.length ≤ 14) ∧
    fresh.cfg.wf ∧ fresh.queue = [] ∧ (2 : BitVec 2) ≠ 3 ∧ (List.replicate 14 (0xA0 : Byte)).length ≤ 14 :=
  ⟨⟨_, _, rfl, rfl⟩, ⟨_, _, rfl, by decide⟩, by decide, rfl, by decide, by decide⟩

theorem witness_ResponseBursts : busy.cfg.wf ∧ (1 : Slot).toNat < busy.cfg.nframes ∧ (∃ e q, busy.queue = e :: q) ∧
    (∃ t r, exec (.tcGetlp 2 5) busy = .next t ∧ t.response = some r ∧ r.status ≠ .ok) ∧
    (∃ t r, exec (.tcCalcchk 0) busy = .next t ∧ t.response = some r ∧ (∀ f n, Instr.tcCalcchk 0 ≠ .tcGetlp f n) ∧
      Instr.tcCalcchk 0 ≠ .aqPop) :=
  ⟨by decide, by decide, ⟨_, _, rfl⟩, ⟨_, _, rfl, rfl, by decide⟩, ⟨_, _, rfl, rfl, by simp, by simp⟩⟩

theorem witness_LostCountsEvictionsOnly :
    (busy.cfg.wf ∧ (1 : BitVec 2) ≠ 3 ∧ (List.replicate 14 (0 : Byte)).length ≤ 14 ∧
      busy.queue.length = busy.cfg.aqCapacity ∧ { busy with lost := 0xFFFF }.queue.length = busy.cfg.aqCapacity) ∧
    (∃ t, exec (.aqAppend 1 5 1 []) busy = .next t ∧ t.lost ≠ busy.lost) ∧
    (∃ t, step { busy with input := [.reset] } = .next t ∧ t.lost.toNat < { busy with input := [.reset] }.lost.toNat) :=
  ⟨by decide, ⟨_, rfl, by decide⟩, ⟨_, rfl, by decide⟩⟩

/-- Slots 0 and 1 are there and slots 2 and 15 are not, in a block with two; in one with sixteen slot 15 is there.  The
hypotheses of the statements about one TC command are of this shape. -/
theorem slots_at_their_bounds : (1 : Slot).toNat < busy.cfg.nframes ∧ busy.cfg.nframes ≤ (2 : Slot).toNat ∧
    (15 : Slot).toNat < (State.init sixteen).cfg.nframes := by decide

/-- What one TC command's statement asks of the state and the slot: there, and not there. -/
abbrev SlotInAndOut : Prop := busy.cfg.wf ∧ (1 : Slot).toNat < busy.cfg.nframes ∧ busy.cfg.nframes ≤ (2 : Slot).toNat

theorem witness_ClearStoresDefaultFrame : SlotInAndOut := by decide

theorem witness_ControlByteSetters : SlotInAndOut := by decide

theorem witness_AddressSetters : SlotInAndOut := by decide

theorem witness_RoutingByteSetters : SlotInAndOut := by decide

theorem witness_HeaderGetters : SlotInAndOut := by decide

theorem witness_SetcmdSplitsTheCode : SlotInAndOut := by decide

theorem witness_FirstPayloadSetters : SlotInAndOut := by decide

theorem witness_CommandPayloadAndLengthGetters : SlotInAndOut := by decide

theorem witness_SetlpStoresClampedBurst : SlotInAndOut := by decide

theorem witness_GetlpAnswersClampedRun : SlotInAndOut := by decide

theorem witness_ClrlpZeroesLongPayload : SlotInAndOut := by decide

theorem witness_ChecksumComputedAndStored : SlotInAndOut := by decide

/-- The masks of R5, and a block with another pattern mask. -/
theorem witness_ValidateAnswersFirstFailingCheck : SlotInAndOut ∧
    { busy.cfg with ctrlPatternMask := 0x03, ctrlPatternValue := 0x00 }.wf ∧ busy.cfg.ctrlPatternMask = 0x13 ∧
    busy.cfg.ctrlPatternValue = 0x10 ∧ busy.cfg.ctrlFormatMask = 0xC0 ∧ busy.cfg.ctrlFormatStandard = 0x80 ∧
    busy.cfg.cmdPatternMask = 0xC0 ∧ busy.cfg.cmdPatternValue = 0x00 := by decide

theorem witness_SetlenReplacesLengthAndRefusesZero : SlotInAndOut ∧ (1 : BitVec 4) ≠ 0 ∧ (0 : BitVec 4) = 0 := by decide

theorem witness_RawByteAccess : SlotInAndOut ∧ (22 : BitVec 5).toNat ≤ 22 ∧ 23 ≤ (23 : BitVec 5).toNat := by decide

theorem witness_CopyCopiesWholeSlot : SlotInAndOut ∧ (1 : Slot) = 1 := by decide

theorem witness_CopyhdrCopiesSixBytes : SlotInAndOut := by decide

theorem witness_SetThenGetAnswersOperand : busy.cfg.wf ∧ (1 : Slot).toNat < busy.cfg.nframes ∧
    (∃ t u, exec (.tcSetpri 1 2) busy = .next t ∧ exec (.tcGetpri 1) t = .next u) ∧
    (∃ t u, exec (.tcSetsrc 1 0xFFFE) busy = .next t ∧ exec (.tcGetsrc 1) t = .next u) ∧
    (∃ t u, exec (.tcSetsrc 1 0xFFFE) busy = .next t ∧ exec (.tcRdbyte 1 1) t = .next u) ∧
    (∃ t u, exec (.tcSetsrc 1 0xFFFE) busy = .next t ∧ exec (.tcRdbyte 1 2) t = .next u) ∧
    (∃ t u, exec (.tcSetdst 1 0xFFFE) busy = .next t ∧ exec (.tcGetdst 1) t = .next u) ∧
    (∃ t u, exec (.tcSetmc 1 0) busy = .next t ∧ exec (.tcIsmc 1) t = .next u) ∧
    (∃ t u, exec (.tcSethop 1 7) busy = .next t ∧ exec (.tcGethop 1) t = .next u) ∧
    (∃ t u, exec (.tcSetlen 1 15) busy = .next t ∧ exec (.tcGetlen 1) t = .next u) ∧
    (∃ t u, exec (.tcSetcmd 1 15) busy = .next t ∧ exec (.tcGetcmd 1) t = .next u) ∧
    (∃ t u, exec (.tcSetfpb 1 63) busy = .next t ∧ exec (.tcGetfpb 1) t = .next u) ∧
    (∃ t u, exec (.tcWrbyte 1 22 255) busy = .next t ∧ exec (.tcRdbyte 1 22) t = .next u) :=
  ⟨by decide, by decide, ⟨_, _, rfl, rfl⟩, ⟨_, _, rfl, rfl⟩, ⟨_, _, rfl, rfl⟩, ⟨_, _, rfl, rfl⟩, ⟨_, _, rfl, rfl⟩, ⟨_, _, rfl, rfl⟩,
    ⟨_, _, rfl, rfl⟩,
    ⟨_, _, rfl, rfl⟩, ⟨_, _, rfl, rfl⟩, ⟨_, _, rfl, rfl⟩, ⟨_, _, rfl, rfl⟩⟩

theorem witness_SettersKeepNeighbourFields : busy.cfg.wf ∧ (1 : Slot).toNat < busy.cfg.nframes ∧
    (∃ t, exec (.tcSetpri 1 2) busy = .next t) ∧ (∃ t, exec (.tcSetrep 1) busy = .next t) ∧
    (∃ t, exec (.tcSetmc 1 0) busy = .next t) ∧ (∃ t, exec (.tcSethop 1 7) busy = .next t) ∧
    (∃ t, exec (.tcSetlen 1 15) busy = .next t) ∧ (∃ t, exec (.tcSetcmd 1 15) busy = .next t) ∧
    (∃ t, exec (.tcSetfpb 1 63) busy = .next t) :=
  ⟨by decide, by decide, ⟨_, rfl⟩, ⟨_, rfl⟩, ⟨_, rfl⟩, ⟨_, rfl⟩, ⟨_, rfl⟩, ⟨_, rfl⟩, ⟨_, rfl⟩⟩

/-- Slot 0 with L = 3, and a slot whose L is 0. -/
theorem witness_UpdchkMakesFrameConsistent : (0 : Slot).toNat < busy.cfg.nframes ∧ (∃ t, exec (.tcUpdchk 0) busy = .next t) ∧
    (loaded [0xFF, 0xFF, 0xFF, 0xFF, 0xFF, 0xF0]).payloadLen 0 = 0 ∧
    ∃ t, exec (.tcUpdchk 0) (loaded [0xFF, 0xFF, 0xFF, 0xFF, 0xFF, 0xF0]) = .next t :=
  ⟨by decide, ⟨_, rfl⟩, by decide, ⟨_, rfl⟩⟩

/-- A frame whose checksum is right, and the bounds of the covered offsets: the checksum byte, and L's neighbour bit. -/
theorem witness_SingleBitErrorIsDetected : busy.byte 0 (7 + busy.payloadLen 0) = busy.chk 0 ∧ busy.payloadLen 0 = 3 ∧
    10 ≤ 7 + busy.payloadLen 0 ∧ 7 < 8 ∧ ¬ (10 = 5 ∧ 7 < 4) ∧ ¬ (5 = 5 ∧ 4 < 4) := by decide

theorem witness_ChecksumAndVerdictIgnore : 9 < 7 + busy.payloadLen 0 ∧ 0 < 7 + busy.payloadLen 0 ∧ 9 ≠ 5 ∧ 0 ≠ 5 ∧
    7 + busy.payloadLen 0 ≤ 10 ∧ 8 + busy.payloadLen 0 ≤ 11 := by decide

theorem witness_ValidFrameHasLegalLength : busy.cfg.wf ∧ (0 : Slot).toNat < busy.cfg.nframes ∧
    ∃ t u, exec (.tcValidate 0) busy = .next t ∧ t.response = some ⟨.ok, 0, 0, []⟩ ∧ exec (.tcTlen 0) t = .next u ∧
      u.response = some ⟨.ok, 0, 11, []⟩ := ⟨by decide, by decide, _, _, rfl, by decide, rfl, by decide⟩

theorem witness_LongPayloadRoundTrip : busy.cfg.wf ∧ (1 : Slot).toNat < busy.cfg.nframes ∧ (List.replicate 255 (0x5A : Byte)).length ≤ 255 := by
  refine ⟨by decide, by decide, ?_⟩
  rw [List.length_replicate]

theorem witness_CopiedSlotsAnswerAlike : busy.cfg.wf ∧ (1 : Slot).toNat < busy.cfg.nframes ∧ (0 : Slot).toNat < busy.cfg.nframes ∧
    ∃ t, exec (.tcCopy 1 0) busy = .next t := ⟨by decide, by decide, by decide, _, rfl⟩

theorem witness_LoadExpansionStoresBytes : busy.cfg.wf ∧ (1 : Slot).toNat < busy.cfg.nframes ∧ 1 ≤ [0x77].length ∧
    1 ≤ (List.replicate 23 (0 : Byte)).length ∧ (List.replicate 23 (0 : Byte)).length ≤ 23 := by decide

/-- An accepted append on a full queue and on one that is not, kind 3, and fifteen bytes. -/
theorem witness_AppendEvictsOldestWhenFull : busy.cfg.wf ∧ busy.queue.length = busy.cfg.aqCapacity ∧
    fresh.queue.length ≠ fresh.cfg.aqCapacity ∧ kindCode .responseRequest = 2 ∧ (List.replicate 14 (0 : Byte)).length ≤ 14 ∧
    (3 : BitVec 2) = 3 ∧ 15 ≤ (List.replicate 15 (0 : Byte)).length := by decide

theorem witness_PopAnswersOldestAndLostIsRead : fresh.queue = [] ∧ ∃ e q, busy.queue = e :: q := ⟨rfl, _, _, rfl⟩

theorem witness_LastAppendsSurvive : fresh.cfg.wf ∧ ∀ e ∈ [entryA, entryB, entryC, entryD], e.data.length ≤ 14 := by
  decide

/-- A full buffer of capacity 2 whose head has moved, beside the queue of `busy`. -/
theorem witness_RingRefinesQueue : ∃ r : Ring, r.wf ∧ r.buf.length = busy.cfg.aqCapacity ∧ r.entries = busy.queue ∧
    busy.queue ≠ [] ∧ r.hd = 1 := by
  refine ⟨⟨[⟨.writeRequest, 255, 0xFF, [0xA0, 0xA1, 0xA2, 0xA3, 0xA4, 0xA5, 0xA6, 0xA7, 0xA8, 0xA9, 0xAA, 0xAB, 0xAC, 0xAD]⟩,
    entryD], 1, 2⟩, ?_⟩
  decide

theorem witness_BuildMakesLeastIndexTable : (List.replicate 255 (⟨0x0901, 1⟩ : Descriptor)).length ≤ 255 := by
  rw [List.length_replicate]

theorem witness_LookupIsExactMatch : busy.table.Pairwise (fun p q => p.addr < q.addr) ∧ (⟨0xFFFF, 5⟩ : Pair) ∈ busy.table ∧
    ∀ p ∈ busy.table, p.addr ≠ 0x0900 := by decide

theorem witness_LookupAfterBuildFindsLeastFlaggedIndex : (List.replicate 255 (⟨0x0901, 1⟩ : Descriptor)).length ≤ 255 ∧
    LeastFlagged [⟨0x0901, 0xFE⟩, ⟨0x0901, 1⟩, ⟨0x0901, 1⟩] 0x0901 1 := by
  refine ⟨by rw [List.length_replicate], ⟨by decide, by decide, by decide⟩, ?_⟩
  intro j h hf _
  match j with
  | 0 => simp at hf
  | j + 1 => omega

end Sys2Proof.Tests
end

section
/-! PROOFS. The block as built, the length of a valid frame, and that a unit's commands depend on that unit's state alone
(spec/00_scope.md R1, R5). -/

namespace Sys2Proof.Machine

/-! ## The block as built -/

/-- The defaults of `Config` are R5's values, and the free capacity is at least 1 (D23). -/
theorem built_wf : Config.built.wf :=
  ⟨by decide, by decide, Nat.le_add_left 1 _, ⟨rfl, rfl, rfl, rfl, rfl, rfl⟩, ⟨rfl, rfl, rfl, rfl⟩, rfl, rfl, rfl⟩

/-- Settles O58: every parameter but the capacity is read off the defaults of `Config`. -/
theorem builtBlockHasParametersOfR5 : Obligations.BuiltBlockHasParametersOfR5 := by
  obtain ⟨-, -, hcapacity, -⟩ := built_wf
  exact ⟨rfl, built_wf, rfl, rfl, rfl, rfl, rfl, rfl, rfl, rfl, rfl, rfl, rfl, rfl, rfl, rfl, rfl, rfl, rfl, hcapacity,
    rfl, rfl, rfl⟩

/-! ## The length of a valid frame -/

theorem verdictCode_eq_zero {v : Verdict} : verdictCode v = 0 ↔ v = .valid := by
  cases v <;> decide

/-- Check 3 of R143 stands before a verdict of 0. -/
theorem State.payloadLen_pos_of_valid {s : State} {f : Nat} (h : s.verdict f = .valid) : 0 < s.payloadLen f := by
  refine Nat.pos_of_ne_zero fun hzero => ?_
  unfold State.verdict at h
  by_cases hcontrol : controlOk s.cfg (s.byte f 0)
  · by_cases hformat : formatOk s.cfg (s.byte f 0)
    · simp [hcontrol, hformat, hzero] at h
    · simp [hcontrol, hformat] at h
  · simp [hcontrol] at h

/-- TC.VALIDATE's answer on a slot that exists (R143). -/
theorem exec_tcValidate {s : State} {f : Slot} (hf : f.toNat < s.cfg.nframes) :
    exec (.tcValidate f) s = .next { s with response := some ⟨.ok, 0, verdictCode (s.verdict f.toNat), []⟩ } :=
  withSlot_of_lt hf

/-- TC.TLEN's answer on a slot that exists (R129). -/
theorem exec_tcTlen {s : State} {f : Slot} (hf : f.toNat < s.cfg.nframes) :
    exec (.tcTlen f) s =
      .next { s with response := some ⟨.ok, 0, BitVec.ofNat 16 (s.cfg.hdrLenOffset + s.payloadLen f.toNat), []⟩ } :=
  withSlot_of_lt hf

/-- Settles O47: the length is 8 + L, where check 3 keeps L from 0 and its four bits keep it to 15. -/
theorem validFrameHasLegalLength : Obligations.ValidFrameHasLegalLength := by
  intro s t u f v hwf hf hvalidate hzero htlen hv
  rw [exec_tcValidate hf] at hvalidate
  obtain ⟨hcfg, hframes, hverdict⟩ : t.cfg = s.cfg ∧ t.frames = s.frames ∧
      t.response = some ⟨.ok, 0, verdictCode (s.verdict f.toNat), []⟩ := by
    cases hvalidate; exact ⟨rfl, rfl, rfl⟩
  rw [exec_tcTlen (hcfg ▸ hf)] at htlen
  have hlen : v = BitVec.ofNat 16 (8 + s.payloadLen f.toNat) := by
    cases htlen
    simpa [hcfg, hdrLenOffset_of_wf hwf, State.payloadLen_congr hcfg hframes] using hv.symm
  have hvalid : s.verdict f.toNat = .valid := verdictCode_eq_zero.mp (by simpa [hverdict] using hzero)
  have hpos := State.payloadLen_pos_of_valid hvalid
  have hle := s.payloadLen_le f.toNat
  rw [hlen, BitVec.toNat_ofNat]
  omega

/-! ## A unit depends on its own state alone -/

/-- What a unit shows of a command's outcome: its own part of the next state, and the response. -/
def unitView {α : Type} (own : State → α) : Host.Outcome State Fault Refusal → Option (α × Option Response)
  | .next t => some (own t, t.response)
  | .fault _ => none
  | .refused _ => none

@[simp] theorem unitView_next {α : Type} (own : State → α) (t : State) :
    unitView own (.next t) = some (own t, t.response) := rfl

/-- Equal views are equal own states and responses, of next states in hand. -/
theorem eq_of_unitView_eq {α : Type} {own : State → α} {i : Instr} {s s' t t' : State} (ht : exec i s = .next t)
    (ht' : exec i s' = .next t') (h : unitView own (exec i s) = unitView own (exec i s')) :
    own t = own t' ∧ t.response = t'.response := by
  simpa [ht, ht'] using h

section
variable {α : Type} {own : State → α} {s s' : State}
  (hown : ∀ r, own { s with response := r } = own { s' with response := r })
include hown

/-- Equal responses over equal own states. -/
theorem unitView_answer_congr {r r' : Response} (hr : r = r') :
    unitView own (answer s r) = unitView own (answer s' r') := by
  simp [answer, hr, hown]

/-- A slot check turns out alike where the configurations agree. -/
theorem unitView_withSlot_congr (hc : s.cfg = s'.cfg) (f : Slot) {run run' : Host.Outcome State Fault Refusal}
    (h : unitView own run = unitView own run') :
    unitView own (withSlot f s run) = unitView own (withSlot f s' run') := by
  by_cases hf : f.toNat < s.cfg.nframes
  · rw [withSlot_of_lt hf, withSlot_of_lt (hc ▸ hf), h]
  · rw [withSlot_of_ge (not_lt.mp hf), withSlot_of_ge (not_lt.mp (hc ▸ hf))]
    exact unitView_answer_congr hown rfl

/-- A further operand check of one condition turns out alike. -/
theorem unitView_require_congr {c c' : Prop} [Decidable c] [Decidable c'] (hcond : c ↔ c')
    {run run' : Host.Outcome State Fault Refusal} (h : unitView own run = unitView own run') :
    unitView own (require c s run) = unitView own (require c' s' run') := by
  by_cases hcase : c
  · rw [require, require, if_pos hcase, if_pos (hcond.mp hcase), h]
  · rw [require, require, if_neg hcase, if_neg (mt hcond.mpr hcase)]
    exact unitView_answer_congr hown rfl

end

section
variable {s s' : State} (hc : s.cfg = s'.cfg) (hF : s.frames = s'.frames)
include hc hF

theorem State.setBytes_frames_congr (f i : Nat) (bs : List Byte) :
    (s.setBytes f i bs).frames = (s'.setBytes f i bs).frames := by
  induction bs generalizing s s' i with
  | nil => exact hF
  | cons b bs ih => exact ih (s := s.setByte f i b) (s' := s'.setByte f i b) hc (by simp [hc, hF]) _

/-- A run of equal bytes stored at equal offsets leaves equal frame space. -/
theorem framesView_store (f : Nat) {lo lo' : Nat} {bs bs' : List Byte} (hlo : lo = lo') (hbs : bs = bs') :
    unitView State.frames (answerOk (s.setBytes f lo bs)) = unitView State.frames (answerOk (s'.setBytes f lo' bs')) := by
  subst hlo hbs
  exact unitView_answer_congr (fun _ => State.setBytes_frames_congr hc hF f lo bs) rfl

/-- The same for a single byte. -/
theorem framesView_storeByte (f : Nat) {i i' : Nat} {b b' : Byte} (hi : i = i') (hb : b = b') :
    unitView State.frames (answerOk (s.setByte f i b)) = unitView State.frames (answerOk (s'.setByte f i' b')) :=
  framesView_store hc hF f hi (congrArg (fun x => [x]) hb)

/-- A TC command's view is settled by frame space and the configuration (R1): the bytes it answers and the bytes it stores are
computed from those. -/
theorem framesView_congr_of_isTc {i : Instr} (hi : IsTc i) :
    unitView State.frames (exec i s) = unitView State.frames (exec i s') := by
  have hown : ∀ r, State.frames { s with response := r } = State.frames { s' with response := r } := fun _ => hF
  have hbyte := State.byte_congr hc hF
  have hbytes := State.bytes_congr hc hF
  have hlen := State.payloadLen_congr hc hF
  have hchk := State.chk_congr hc hF
  have hverdict := State.verdict_congr hc hF
  cases i
  case aqAppend | aqPop | aqLost | aiBuild | aiLookup => exact hi.elim
  case tcGetpri f | tcGetsrc f | tcGetdst f | tcIsmc f | tcGethop f | tcGetlen f | tcGetcmd f | tcGetfpb f =>
    exact unitView_withSlot_congr hown hc f (unitView_answer_congr hown (by simp only [hbyte]))
  case tcGetlp f n =>
    exact unitView_withSlot_congr hown hc f (unitView_answer_congr hown (by simp only [hbytes, hc]))
  case tcCalcchk f =>
    exact unitView_withSlot_congr hown hc f (unitView_answer_congr hown (by simp only [hchk]))
  case tcValidate f =>
    exact unitView_withSlot_congr hown hc f (unitView_answer_congr hown (by simp only [hverdict]))
  case tcTlen f =>
    exact unitView_withSlot_congr hown hc f (unitView_answer_congr hown (by simp only [hlen, hc]))
  case tcRdbyte f k =>
    exact unitView_withSlot_congr hown hc f
      (unitView_require_congr hown (by rw [hc]) (unitView_answer_congr hown (by simp only [hbyte])))
  case tcSetmc f _ | tcSethop f _ | tcSetfpb f _ | tcClrfpb f =>
    exact unitView_withSlot_congr hown hc f (framesView_storeByte hc hF f.toNat rfl (by simp only [hbyte]))
  case tcSetpri f _ | tcSetrep f =>
    exact unitView_withSlot_congr hown hc f (framesView_storeByte hc hF f.toNat rfl (by simp only [hbyte, hc]))
  case tcUpdchk f =>
    exact unitView_withSlot_congr hown hc f (framesView_storeByte hc hF f.toNat (by rw [hlen]) (hchk f.toNat))
  case tcSetlen f n =>
    exact unitView_withSlot_congr hown hc f
      (unitView_require_congr hown .rfl (framesView_storeByte hc hF f.toNat rfl (by simp only [hbyte])))
  case tcWrbyte f k v =>
    exact unitView_withSlot_congr hown hc f
      (unitView_require_congr hown (by rw [hc]) (framesView_storeByte hc hF f.toNat rfl rfl))
  case tcSetsrc f _ | tcSetdst f _ =>
    exact unitView_withSlot_congr hown hc f (framesView_store hc hF f.toNat rfl rfl)
  case tcSetcmd f c =>
    exact unitView_withSlot_congr hown hc f (framesView_store hc hF f.toNat rfl (by simp only [hbyte]))
  case tcClear f | tcSetlp f _ | tcClrlp f =>
    exact unitView_withSlot_congr hown hc f (framesView_store hc hF f.toNat rfl (by simp only [hc]))
  case tcCopy f g | tcCopyhdr f g =>
    exact unitView_withSlot_congr hown hc f
      (unitView_withSlot_congr hown hc g (framesView_store hc hF f.toNat rfl (by simp only [hbytes, hc])))

end

/-- The action queue unit's own state (R160). -/
def State.queueUnit (s : State) : List Entry × BitVec 16 := (s.queue, s.lost)

section
variable {s s' : State} (hQ : s.queue = s'.queue) (hL : s.lost = s'.lost)
include hQ hL

/-- Queuing reads the queue, the loss counter and the configuration alone (R161). -/
theorem State.queueUnit_enqueue_congr (hc : s.cfg = s'.cfg) (e : Entry) :
    (s.enqueue e).queueUnit = (s'.enqueue e).queueUnit := by
  unfold State.enqueue
  rw [hc, hQ, hL]
  by_cases hfull : s'.queue.length = s'.cfg.aqCapacity
  · simp only [if_pos hfull, State.queueUnit]
  · simp only [if_neg hfull, State.queueUnit]

/-- An AQ command's view is settled by the queue, the loss counter and the configuration (R160). -/
theorem queueView_congr_of_isAq (hc : s.cfg = s'.cfg) {i : Instr} (hi : IsAq i) :
    unitView State.queueUnit (exec i s) = unitView State.queueUnit (exec i s') := by
  have hown : ∀ r, State.queueUnit { s with response := r } = State.queueUnit { s' with response := r } :=
    fun _ => Prod.ext hQ hL
  obtain ⟨kind, index, short, data, rfl⟩ | rfl | rfl := hi
  · simp only [exec, execAqAppend]
    cases kindOfCode kind with
    | none => exact unitView_answer_congr hown rfl
    | some k =>
      exact unitView_require_congr hown (by rw [hc])
        (unitView_answer_congr (fun _ => State.queueUnit_enqueue_congr hQ hL hc _) rfl)
  · simp only [exec, execAqPop, hQ]
    cases s'.queue with
    | nil => exact unitView_answer_congr hown rfl
    | cons e q =>
      refine unitView_answer_congr (fun _ => ?_) rfl
      exact Prod.ext rfl hL
  · exact unitView_answer_congr hown (by rw [hL])

end

/-- An AI command's view is settled by the table (R180). -/
theorem tableView_congr_of_isAi {s s' : State} (hT : s.table = s'.table) {i : Instr} (hi : IsAi i) :
    unitView State.table (exec i s) = unitView State.table (exec i s') := by
  obtain ⟨objs, rfl⟩ | ⟨a, rfl⟩ := hi
  · exact unitView_answer_congr (fun _ => rfl) rfl
  · simp only [exec, execAiLookup, hT]
    cases Table.lookup s'.table a with
    | none => exact unitView_answer_congr (fun _ => hT) rfl
    | some k => exact unitView_answer_congr (fun _ => hT) rfl

/-- Settles O19, by the congruence of each unit's view. -/
theorem unitsLearnNothingOfOthers : Obligations.UnitsLearnNothingOfOthers := by
  intro i s s' t t' hc ht ht'
  refine ⟨fun hi hF => ?_, fun hi hQ hL => ?_, fun hi hT => ?_⟩
  · exact eq_of_unitView_eq ht ht' (framesView_congr_of_isTc hc hF hi)
  · obtain ⟨hown, hresponse⟩ := eq_of_unitView_eq ht ht' (queueView_congr_of_isAq hQ hL hc hi)
    obtain ⟨hqueue, hlost⟩ := Prod.mk.inj hown
    exact ⟨hqueue, hlost, hresponse⟩
  · exact eq_of_unitView_eq ht ht' (tableView_congr_of_isAi hT hi)

end Sys2Proof.Machine
end

section
/-! PROOFS. What a step can do, the invariant at reset and under every step, the loss counter, what reset leaves in a slot, and
the circular buffer as the queue (spec/10_state.md). -/

namespace Sys2Proof.Machine

/-! ## What a step can do -/

/-- What a transaction that is a command is: some row's, assembled from a burst of the row's length (R70, R74). -/
theorem row_of_decode {w : Word} {b : List Byte} {i : Instr} (h : decode w b = .ok i) :
    ∃ r ∈ opcodeTable, b.length = r.burstLen w ∧ i = r.assemble w b := by
  unfold decode at h
  cases hrow : rowOf w with
  | none =>
    simp only [hrow] at h
    split at h <;> cases h
  | some r =>
    have hlen : announcedBurst w = r.burstLen w := by simp [announcedBurst, hrow]
    by_cases hb : b.length = announcedBurst w
    · exact ⟨r, List.mem_of_find?_eq_some hrow, hb.trans hlen, by simpa [hrow, hb, eq_comm] using h⟩
    · simp [hb] at h

/-- A row's count field bounds its burst (R63). -/
theorem assemble_wellFormed {r : Row} (hr : r ∈ opcodeTable) {w : Word} {b : List Byte} (hb : b.length = r.burstLen w) :
    (r.assemble w b).WellFormed := by
  revert r
  simp only [opcodeTable, headerRows, payloadRows, queueRows, indexRows, List.forall_mem_append, List.forall_mem_cons,
    List.not_mem_nil, false_implies, Instr.WellFormed, implies_true, true_and, and_true]
  refine ⟨fun hsetlp => ?_, fun happend => ?_, fun hbuild => ?_⟩
  · omega
  · omega
  · have := (flatMap_descriptorsOf _ b hbuild).2
    omega

/-- What decodes is well-formed (R63). -/
theorem wellFormed_of_decode {w : Word} {b : List Byte} {i : Instr} (h : decode w b = .ok i) : i.WellFormed := by
  obtain ⟨r, hr, hb, rfl⟩ := row_of_decode h
  exact assemble_wellFormed hr hb

/-- The forms of a step's next state (R50, R71, R72, R216, R230). -/
inductive StepEffect (s : State) : State → Prop where
  /-- nothing presented -/
  | idle (head : s.input = []) : StepEffect s s
  /-- the reset pulse -/
  | reset (rest : List PortEvent) (head : s.input = .reset :: rest) : StepEffect s { s with input := rest }.afterReset
  /-- an illegal word -/
  | illegal (w : Word) (b : List Byte) (rest : List PortEvent) (error : DecodeError)
      (head : s.input = .command w b :: rest) (rejected : decode w b = .error error) (length : error ≠ .burstLength) :
      StepEffect s { s with input := rest, response := some (bare .errIllegal) }
  /-- a command, executed -/
  | ran (w : Word) (b : List Byte) (rest : List PortEvent) (i : Instr) (t : State) (head : s.input = .command w b :: rest)
      (decoded : decode w b = .ok i) (effect : Effect i { s with input := rest } t) : StepEffect s t

/-- A rejected transaction is answered, unless its burst has the wrong length (R63, R71, R72). -/
theorem rejectTransaction_next {e : DecodeError} {s t : State} (h : rejectTransaction e s = .next t) :
    e ≠ .burstLength ∧ t = { s with response := some (bare .errIllegal) } := by
  cases e with
  | unknownOpcode => exact ⟨by decide, (Host.Outcome.next.inj h).symm⟩
  | reservedBits => exact ⟨by decide, (Host.Outcome.next.inj h).symm⟩
  | burstLength => cases h

/-- What a step can do; only a configuration of the block steps (X3). -/
theorem stepEffect_of_step {s t : State} (h : step s = .next t) : s.cfg.wf ∧ StepEffect s t := by
  unfold step fetch at h
  by_cases hwf : s.cfg.wf
  · refine ⟨hwf, ?_⟩
    rw [if_pos hwf] at h
    match hin : s.input with
    | [] =>
      simp only [hin] at h
      cases h
      exact .idle hin
    | .reset :: rest =>
      simp only [hin] at h
      cases h
      exact .reset rest hin
    | .command w b :: rest =>
      simp only [hin] at h
      cases hd : decode w b with
      | ok i =>
        simp only [hd] at h
        exact .ran w b rest i t hin hd (effect_of_exec h)
      | error e =>
        simp only [hd] at h
        obtain ⟨hlength, rfl⟩ := rejectTransaction_next h
        exact .illegal w b rest e hin hd hlength
  · simp [hwf] at h

/-! ## The queue's operations -/

section
variable {s : State} (e : Entry)

/-- R161: a full queue makes room by its oldest entry before it takes the new one. -/
theorem State.enqueue_queue :
    (s.enqueue e).queue = (if s.queue.length = s.cfg.aqCapacity then s.queue.tail else s.queue) ++ [e] := by
  unfold State.enqueue
  split <;> rfl

/-- R161, R166: an append counts a loss when it evicts. -/
theorem State.enqueue_lost :
    (s.enqueue e).lost = if s.queue.length = s.cfg.aqCapacity then bumpLost s.cfg s.lost else s.lost := by
  unfold State.enqueue
  split <;> rfl

theorem State.mem_enqueue {x : Entry} (hx : x ∈ (s.enqueue e).queue) : x ∈ s.queue ∨ x = e := by
  rw [State.enqueue_queue, List.mem_append, List.mem_singleton] at hx
  refine hx.imp_left fun hold => ?_
  split at hold
  · exact List.mem_of_mem_tail hold
  · exact hold

end

/-- Bits 19:18 of a pop's response word are zero (R64). -/
theorem entryAux_reserved (e : Entry) : (entryAux e).extractLsb' 2 2 = 0 := by
  ext i hi
  rw [BitVec.getElem_extractLsb', entryAux, BitVec.getLsbD_append, if_neg (by omega), BitVec.getLsbD_append,
    if_pos (by omega)]
  simp

theorem popped_fits {c : Config} {e : Entry} (h : e.data.length ≤ c.longMax) :
    Response.Fits c ⟨.ok, entryAux e, entryValue e, e.data⟩ :=
  ⟨fun hne => absurd rfl hne, entryAux_reserved e, h⟩

/-! ## The invariant -/

section
variable {s : State} (hs : Inv s)
include hs

/-- What waits on the port is no part of the invariant. -/
theorem Inv.withInput (rest : List PortEvent) : Inv { s with input := rest } := { hs with }

theorem Inv.respond {r : Response} (hr : r.Fits s.cfg) : Inv { s with response := some r } :=
  { hs with responseFits := fun _ h => Option.some.inj h ▸ hr }

/-- A run stored inside an existing slot keeps the invariant. -/
theorem Inv.setBytes {f lo : Nat} {bs : List Byte} (hf : f < s.cfg.nframes) (inside : lo + bs.length ≤ s.cfg.frameBytes) :
    Inv (s.setBytes f lo bs) where
  config := by simpa using hs.config
  framesWf := by simpa using s.setBytes_wf f lo bs hs.framesWf
  framesIn := by simpa using s.setBytes_in bs hf inside hs.framesIn
  queueFits := by simpa using hs.queueFits
  entriesFit := by simpa using hs.entriesFit
  tableSorted := by simpa using hs.tableSorted
  tableFits := by simpa using hs.tableFits
  responseFits := by simpa using hs.responseFits

/-- A full queue makes room before it takes an entry. -/
theorem Inv.length_enqueue_le (e : Entry) : (s.enqueue e).queue.length ≤ s.cfg.aqCapacity := by
  obtain ⟨-, -, hcapacity, -⟩ := hs.config
  have hle := hs.queueFits
  rw [State.enqueue_queue, List.length_append, List.length_singleton]
  split
  · rw [List.length_tail]
    omega
  · omega

theorem Inv.enqueue {e : Entry} (he : e.data.length ≤ s.cfg.longMax) : Inv (s.enqueue e) where
  config := by simpa using hs.config
  framesWf := by simpa using hs.framesWf
  framesIn := by simpa using hs.framesIn
  queueFits := by simpa using hs.length_enqueue_le e
  entriesFit x hx := by
    rw [State.enqueue_cfg]
    obtain hx | rfl := State.mem_enqueue e hx
    · exact hs.entriesFit x hx
    · exact he
  tableSorted := by simpa using hs.tableSorted
  tableFits := by simpa using hs.tableFits
  responseFits := by simpa using hs.responseFits

theorem Inv.dequeue {e : Entry} {q : List Entry} (hq : s.queue = e :: q) : Inv { s with queue := q } :=
  { hs with
    queueFits := (Nat.le_succ _).trans (by simpa [hq] using hs.queueFits)
    entriesFit := fun x hx => hs.entriesFit x (by simp [hq, hx]) }

/-- A well-formed AI.BUILD makes an ascending table of at most 255 pairs (R183). -/
theorem Inv.build {objs : List Descriptor} (hobjs : objs.length ≤ 255) : Inv { s with table := Table.build objs } :=
  { hs with
    tableSorted := Table.buildFrom_sorted [] 0 objs .nil
    tableFits := by
      have := Table.length_buildFrom [] 0 objs
      rw [aiMaxObjects_of_wf hs.config]
      exact this.trans (by simpa using hobjs) }

/-- Every form of a command's next state meets the invariant. -/
theorem Inv.of_effect {i : Instr} {t : State} (hi : i.WellFormed) (h : Effect i s t) : Inv t := by
  cases h with
  | answered r fits => exact hs.respond fits
  | stored f lo bs _ _ _ hf inside =>
    exact (hs.setBytes hf (inside hs.config)).respond (bare_fits _ _)
  | queued k index short data _ fits => exact (hs.enqueue fits).respond (bare_fits _ _)
  | popped e q _ hq =>
    exact (hs.dequeue hq).respond (popped_fits (hs.entriesFit e (by simp [hq])))
  | built objs cmd =>
    subst cmd
    exact (hs.build hi).respond (bare_fits _ _)

end

theorem inv_init {c : Config} (hc : c.wf) : Inv (State.init c) where
  config := hc
  framesWf := Memory.nil_wf
  framesIn := by simp
  queueFits := Nat.zero_le _
  entriesFit := by simp
  tableSorted := .nil
  tableFits := Nat.zero_le _
  responseFits := by simp

/-- Settles O14: nothing is listed, queued or answered after reset, and the block as built is one of R5's. -/
theorem resetMeetsInvariant : Obligations.ResetMeetsInvariant :=
  ⟨fun _ => inv_init, inv_init built_wf⟩

/-- Settles O15, by the forms of a step's next state and of a command's. -/
theorem stepKeepsInvariant : Obligations.StepKeepsInvariant := by
  intro s t hs hstep
  obtain ⟨hwf, heffect⟩ := stepEffect_of_step hstep
  cases heffect with
  | idle => exact hs
  | reset rest => exact (inv_init hwf).withInput rest
  | illegal w b rest => exact (hs.withInput rest).respond (bare_fits _ _)
  | ran w b rest i t _ decoded effect => exact (hs.withInput rest).of_effect (wellFormed_of_decode decoded) effect

/-! ## A TC command stays in its slot -/

/-- Settles O21: a TC command only answers, or stores a run that lies inside the slot its word names. -/
theorem tcWritesOnlyItsSlot : Obligations.TcWritesOnlyItsSlot := by
  intro i s t f hwf htc hslot hexec a ha
  cases effect_of_exec hexec with
  | answered r => rfl
  | stored g lo bs _ _ slot _ inside =>
    obtain rfl : g = f := slot.symm.trans hslot
    have hinside := inside hwf
    rw [frameBytes_of_wf hwf] at hinside
    rw [State.read_response, State.read_setBytes, dif_neg]
    rintro ⟨hlo, hhi⟩
    simp only [frameAddr, frameBytes_of_wf hwf] at hlo hhi
    omega
  | queued k index short data cmd => subst cmd; exact htc.elim
  | popped e q cmd => subst cmd; exact htc.elim
  | built objs cmd => subst cmd; exact htc.elim

/-! ## The loss counter -/

theorem toNat_bumpLost {c : Config} (hc : c.wf) (n : BitVec 16) : (bumpLost c n).toNat = min (n.toNat + 1) 0xFFFF := by
  rw [bumpLost_of_wf hc, BitVec.toNat_ofNat]
  exact Nat.mod_eq_of_lt ((Nat.min_le_right _ _).trans_lt (by norm_num))

theorem kindCode_ne_three (k : Kind) : kindCode k ≠ 3 := by
  cases k <;> decide

/-- An accepted append (R161). -/
theorem exec_aqAppend {s : State} {kind : BitVec 2} {k : Kind} (index short : Byte) {data : List Byte}
    (hk : kindOfCode kind = some k) (hdata : data.length ≤ s.cfg.longMax) :
    exec (.aqAppend kind index short data) s =
      .next { s.enqueue ⟨k, index, short, data⟩ with response := some (bare .ok) } := by
  simp only [exec, execAqAppend, hk]
  exact if_pos hdata

/-- A command leaves the loss counter, or it is an append that evicts (R28). -/
theorem Effect.lost_cases {i : Instr} {s t : State} (hwf : s.cfg.wf) (h : Effect i s t) :
    t.lost = s.lost ∨
      (∃ k x v d, i = .aqAppend k x v d ∧ k ≠ 3 ∧ d.length ≤ 14) ∧ s.queue.length = s.cfg.aqCapacity ∧
        t.lost.toNat = min (s.lost.toNat + 1) 0xFFFF := by
  cases h with
  | answered r => exact .inl rfl
  | stored f lo bs => exact .inl (s.setBytes_lost f.toNat lo bs)
  | queued k index short data cmd fits =>
    by_cases hfull : s.queue.length = s.cfg.aqCapacity
    · refine .inr ⟨⟨_, _, _, _, cmd, kindCode_ne_three k, longMax_of_wf hwf ▸ fits⟩, hfull, ?_⟩
      exact (congrArg BitVec.toNat ((State.enqueue_lost _).trans (if_pos hfull))).trans (toNat_bumpLost hwf s.lost)
    · exact .inl ((State.enqueue_lost _).trans (if_neg hfull))
  | popped e q => exact .inl rfl
  | built objs => exact .inl rfl

theorem Effect.lost_le {i : Instr} {s t : State} (hwf : s.cfg.wf) (h : Effect i s t) : s.lost.toNat ≤ t.lost.toNat := by
  obtain hsame | ⟨-, -, hbump⟩ := h.lost_cases hwf
  · exact (congrArg BitVec.toNat hsame).ge
  · rw [hbump]
    exact Nat.le_min.mpr ⟨Nat.le_succ _, Nat.le_sub_one_of_lt s.lost.isLt⟩

/-- Settles O24: an evicting append is the only command that touches the counter, and it never counts down. -/
theorem lostCountsEvictionsOnly : Obligations.LostCountsEvictionsOnly := by
  refine ⟨fun s kind x v d hwf hkind hd hfull => ?_, fun i s t hwf hexec hne => ?_, fun s t hstep hlt => ?_⟩
  · obtain ⟨k, hk⟩ := Option.ne_none_iff_exists'.mp (mt kindOfCode_eq_none hkind)
    refine ⟨_, exec_aqAppend x v hk (longMax_of_wf hwf ▸ hd), ?_⟩
    rw [State.enqueue_lost, if_pos hfull, toNat_bumpLost hwf]
  · exact ((effect_of_exec hexec).lost_cases hwf).resolve_left hne
  · obtain ⟨hwf, heffect⟩ := stepEffect_of_step hstep
    cases heffect with
    | idle => omega
    | reset rest head => exact ⟨by rw [head]; rfl, rfl⟩
    | illegal w b rest => exact absurd hlt (lt_irrefl _)
    | ran w b rest i t _ _ effect => exact absurd hlt (Effect.lost_le (s := { s with input := rest }) hwf effect).not_gt

/-! ## The state after reset -/

theorem unlisted_frameAddr {c : Config} (f : Nat) {i : Nat} (hi : i < c.frameBytes) :
    Memory.unlisted c (frameAddr c f i) = defaultByte c i := by
  rw [Memory.unlisted, frameAddr, Nat.mul_add_mod', Nat.mod_eq_of_lt hi]

theorem State.byte_init {c : Config} (f : Nat) {i : Nat} (hi : i < c.frameBytes) :
    (State.init c).byte f i = defaultByte c i :=
  unlisted_frameAddr f hi

/-- Storing the default frame over reset content lists no cell. -/
theorem State.setBytes_default_init (c : Config) (f : Nat) :
    ((State.init c).setBytes f 0 ((List.range c.frameBytes).map (defaultByte c))).frames = [] := by
  have hwf := State.setBytes_wf (State.init c) f 0 ((List.range c.frameBytes).map (defaultByte c)) Memory.nil_wf
  refine Memory.ext_of_wf _ [] hwf Memory.nil_wf fun a => ?_
  have hread : ((State.init c).setBytes f 0 ((List.range c.frameBytes).map (defaultByte c))).read a =
      (State.init c).read a := by
    rw [State.read_setBytes]
    split
    next h =>
      obtain ⟨hlo, hhi⟩ := h
      obtain ⟨k, rfl⟩ := Nat.exists_eq_add_of_le hlo
      have hk : k < c.frameBytes := by simpa using hhi
      rw [List.getElem_map, List.getElem_range, Nat.add_sub_cancel_left]
      exact (State.byte_init f hk).symm
    next => rfl
  simpa [State.read] using hread

/-- Settles O12: an unlisted byte reads as the default frame, so storing that frame again lists nothing. -/
theorem resetStateIsTheDefaults : Obligations.ResetStateIsTheDefaults := by
  refine ⟨fun c hwf f _ => ?_, fun c => ⟨rfl, rfl, rfl⟩, fun c f hf => ?_⟩
  · have hbyte : ∀ i < 23, (State.init c).byte f i = defaultByte c i := fun i hi =>
      State.byte_init f (frameBytes_of_wf hwf ▸ hi)
    refine ⟨?_, ?_, fun i hi h0 h5 => ?_⟩
    · rw [hbyte 0 (by decide), defaultByte, if_pos rfl, ctrlDefault_of_wf hwf]
    · rw [hbyte 5 (by decide), defaultByte, if_neg (by decide), if_pos rfl, routingDefault_of_wf hwf]
    · rw [hbyte i hi, defaultByte, if_neg h0, if_neg h5]
  · exact ⟨_, withSlot_of_lt hf, State.setBytes_default_init c f.toNat⟩

/-! ## The circular buffer -/

/-- R166: the head moved on by one, each place is its old successor. -/
theorem Ring.place_pop (r : Ring) (k : Nat) :
    (r.pop.hd + k) % r.pop.buf.length = (r.hd + (k + 1)) % r.buf.length := by
  rw [Ring.pop, Nat.mod_add_mod, Nat.add_assoc, Nat.add_comm 1 k]

section
variable {r : Ring} (hr : r.wf)
include hr

/-- Every place the ring reads lies in its storage. -/
theorem Ring.getElem?_place_isSome (k : Nat) : (r.buf[(r.hd + k) % r.buf.length]?).isSome := by
  simpa using Nat.mod_lt _ (Nat.zero_lt_of_lt hr.1)

theorem Ring.length_entries : r.entries.length = r.cnt := by
  rw [Ring.entries, List.filterMap_length_eq_length.mpr fun k _ => Ring.getElem?_place_isSome hr k, List.length_range]

theorem Ring.pop_wf : r.pop.wf :=
  ⟨Nat.mod_lt _ (Nat.zero_lt_of_lt hr.1), (Nat.sub_le _ _).trans hr.2⟩

/-- R166: popping the ring drops its oldest entry. -/
theorem Ring.entries_pop (hcnt : r.cnt ≠ 0) : r.pop.entries = r.entries.tail := by
  obtain ⟨n, hn⟩ := Nat.exists_eq_add_one_of_ne_zero hcnt
  obtain ⟨e, holdest⟩ := Option.isSome_iff_exists.mp (Ring.getElem?_place_isSome hr 0)
  have hpop : r.pop.cnt = n := Nat.sub_eq_of_eq_add hn
  simp only [Ring.entries, Ring.place_pop, hpop]
  rw [hn, List.range_succ_eq_map,
    List.filterMap_cons_some (f := fun k => r.buf[(r.hd + k) % r.buf.length]?) holdest, List.tail_cons, List.filterMap_map]
  rfl

/-- R166: where there is room, the entry goes behind the newest. -/
theorem Ring.entries_append_of_room (e : Entry) (hroom : r.cnt ≠ r.buf.length) :
    (r.append e).entries = r.entries ++ [e] := by
  obtain ⟨hhd, hcnt⟩ := hr
  have hnew : (r.hd + r.cnt) % r.buf.length < r.buf.length := Nat.mod_lt _ (Nat.zero_lt_of_lt hhd)
  have hold : ∀ k ∈ List.range r.cnt, (r.buf.set ((r.hd + r.cnt) % r.buf.length) e)[(r.hd + k) % r.buf.length]? =
      r.buf[(r.hd + k) % r.buf.length]? := fun k hk => by
    have hk : k < r.cnt := List.mem_range.mp hk
    refine List.getElem?_set_ne fun hplace => ?_
    have hsame : r.cnt = k := (Nat.ModEq.add_left_cancel' r.hd hplace).eq_of_lt_of_lt (by omega) (by omega)
    omega
  simp only [Ring.entries, Ring.append, if_neg hroom, List.length_set, List.range_succ, List.filterMap_append,
    List.filterMap_congr hold]
  simp [hnew]

theorem Ring.append_wf_of_room (e : Entry) (hroom : r.cnt ≠ r.buf.length) : (r.append e).wf := by
  obtain ⟨hhd, hcnt⟩ := hr
  simp only [Ring.append, if_neg hroom, Ring.wf, List.length_set]
  omega

/-- A full ring that has popped has room. -/
theorem Ring.pop_room (hfull : r.cnt = r.buf.length) : r.pop.cnt ≠ r.pop.buf.length := by
  obtain ⟨hhd, hcnt⟩ := hr
  simp only [Ring.pop]
  omega

/-- R166: on eviction the entry takes the place of the oldest, as if that had been popped first. -/
theorem Ring.append_of_full (e : Entry) (hfull : r.cnt = r.buf.length) : r.append e = r.pop.append e := by
  have hcnt : r.pop.cnt + 1 = r.cnt := Nat.sub_add_cancel (by have := hr.1; omega)
  rw [Ring.append, if_pos hfull, Ring.append, if_neg (Ring.pop_room hr hfull), Ring.place_pop, hcnt]
  rfl

theorem Ring.append_wf (e : Entry) : (r.append e).wf := by
  by_cases hfull : r.cnt = r.buf.length
  · rw [Ring.append_of_full hr e hfull]
    exact Ring.append_wf_of_room (Ring.pop_wf hr) e (Ring.pop_room hr hfull)
  · exact Ring.append_wf_of_room hr e hfull

/-- R161, R166: the ring's append is the queue's, the oldest entry making room in a full one. -/
theorem Ring.entries_append (e : Entry) :
    (r.append e).entries = (if r.cnt = r.buf.length then r.entries.tail else r.entries) ++ [e] := by
  by_cases hfull : r.cnt = r.buf.length
  · have hcnt : r.cnt ≠ 0 := by have := hr.1; omega
    rw [if_pos hfull, Ring.append_of_full hr e hfull,
      Ring.entries_append_of_room (Ring.pop_wf hr) e (Ring.pop_room hr hfull), Ring.entries_pop hr hcnt]
  · rw [if_neg hfull, Ring.entries_append_of_room hr e hfull]

end

@[simp] theorem Ring.length_buf_append (r : Ring) (e : Entry) : (r.append e).buf.length = r.buf.length := by
  unfold Ring.append
  split <;> exact List.length_set

/-- Settles O54: popping is dropping the head, appending with room is appending, and appending to a full ring is a pop followed
by an append with room. -/
theorem ringRefinesQueue : Obligations.RingRefinesQueue := by
  intro r s hr hcapacity hqueue
  have hcnt : s.queue.length = r.cnt := hqueue ▸ Ring.length_entries hr
  refine ⟨fun e => ⟨Ring.append_wf hr e, (Ring.length_buf_append r e).trans hcapacity, ?_⟩,
    fun hne => ⟨Ring.pop_wf hr, hcapacity, ?_⟩⟩
  · rw [Ring.entries_append hr, hqueue, State.enqueue_queue, hcnt, hcapacity]
  · have hpos : r.cnt ≠ 0 := hcnt ▸ mt List.eq_nil_of_length_eq_zero hne
    rw [Ring.entries_pop hr hpos, hqueue]

end Sys2Proof.Machine
end

section
/-! PROOFS. Reading commands change no state and repeat their answer, and a step executes the next transaction's command
(spec/20_memory.md R48, R50). -/

namespace Sys2Proof.Machine

/-! ## Reading commands -/

/-- Every command belongs to one of the three units (R1). -/
theorem isTc_or_isAq_or_isAi (i : Instr) : IsTc i ∨ IsAq i ∨ IsAi i := by
  cases i with
  | aqAppend k x v d => exact .inr (.inl (.inl ⟨k, x, v, d, rfl⟩))
  | aqPop => exact .inr (.inl (.inr (.inl rfl)))
  | aqLost => exact .inr (.inl (.inr (.inr rfl)))
  | aiBuild objs => exact .inr (.inr (.inl ⟨objs, rfl⟩))
  | aiLookup a => exact .inr (.inr (.inr ⟨a, rfl⟩))
  | _ => exact .inl trivial

/-- A reading command only answers (R48): each other form of a next state belongs to a command that writes. -/
theorem Effect.exists_response_of_isGetter {i : Instr} {s t : State} (hi : IsGetter i) (h : Effect i s t) :
    ∃ r, t = { s with response := some r } := by
  cases h with
  | answered r => exact ⟨r, rfl⟩
  | stored f lo bs _ noGetter => exact absurd hi noGetter
  | queued k index short data cmd => subst cmd; exact hi.elim
  | popped e q cmd => subst cmd; exact hi.elim
  | built objs cmd => subst cmd; exact hi.elim

theorem exec_of_isGetter {i : Instr} (s : State) (hi : IsGetter i) :
    ∃ r, exec i s = .next { s with response := some r } := by
  obtain ⟨t, hexec, heffect⟩ := exec_effect i s
  obtain ⟨r, rfl⟩ := heffect.exists_response_of_isGetter hi
  exact ⟨r, hexec⟩

/-- The response on the port is no input of a command: over another one the same response follows. -/
theorem response_eq_of_exec_withResponse {i : Instr} {s t t' : State} {p : Option Response} (ht : exec i s = .next t)
    (ht' : exec i { s with response := p } = .next t') : t.response = t'.response := by
  obtain ⟨tc, aq, ai⟩ := unitsLearnNothingOfOthers i s { s with response := p } t t' rfl ht ht'
  obtain hi | hi | hi := isTc_or_isAq_or_isAi i
  · exact (tc hi rfl).2
  · exact (aq hi rfl rfl).2.2
  · exact (ai hi rfl).2

/-- Settles O20: a reading command only answers, and its answer does not depend on the one it replaces. -/
theorem readsHaveNoSideEffect : Obligations.ReadsHaveNoSideEffect := by
  intro i s hi
  obtain ⟨r, hfirst⟩ := exec_of_isGetter s hi
  obtain ⟨r', hagain⟩ := exec_of_isGetter { s with response := some r } hi
  obtain rfl : r = r' := Option.some.inj (response_eq_of_exec_withResponse hfirst hagain)
  exact ⟨r, hfirst, hagain⟩

/-! ## A step executes the next transaction -/

/-- A transaction at the head of the port is what the step takes (R50). -/
theorem fetch_command {s : State} {w : Word} {b : List Byte} {rest : List PortEvent} (hwf : s.cfg.wf)
    (hin : s.input = .command w b :: rest) : fetch s = .command w b { s with input := rest } := by
  rw [fetch, if_pos hwf, hin]

/-- Settles O7, by the two matches of the step: what the port has, and what the transaction decodes to. -/
theorem stepRunsDecodedCommand : Obligations.StepRunsDecodedCommand := by
  intro s w b rest i hwf hin hdecode
  simp only [step, fetch_command hwf hin, hdecode]

end Sys2Proof.Machine
end

section
/-! PROOFS. The decoder and the encoder undo each other, and the decoder follows the opcode table (spec/30_encoding.md R60 to
R63, R70 to R74). -/

namespace Sys2Proof

open Machine

/-! ## Words and rows -/

theorem Row.matches_iff {r : Row} {w : Word} : r.Matches w = true ↔ w &&& r.mask = r.pattern := beq_iff_eq

theorem announcedBurst_of_matches {r : Row} (hr : r ∈ opcodeTable) {w : Word} (h : r.Matches w = true) :
    announcedBurst w = r.burstLen w := by
  rw [announcedBurst, rowOf_eq hr h]

/-- R70: a word in a row, with a burst of the row's length, is the row's command. -/
theorem decode_of_matches {r : Row} (hr : r ∈ opcodeTable) {w : Word} {b : List Byte} (h : r.Matches w = true)
    (hb : b.length = r.burstLen w) : decode w b = .ok (r.assemble w b) := by
  simp only [decode, announcedBurst_of_matches hr h, rowOf_eq hr h, if_pos hb]

theorem rowOf_eq_none_iff {w : Word} : rowOf w = none ↔ ∀ r ∈ opcodeTable, w &&& r.mask ≠ r.pattern := by
  simp only [rowOf, List.find?_eq_none, Row.matches_iff, ne_eq]

theorem rowOf_eq_some_iff {w : Word} {r : Row} : rowOf w = some r ↔ r ∈ opcodeTable ∧ r.Matches w = true :=
  ⟨fun h => ⟨List.mem_of_find?_eq_some h, List.find?_some (p := fun r : Row => r.Matches w) h⟩,
    fun ⟨hr, h⟩ => rowOf_eq hr h⟩

theorem decode_of_length_ne {w : Word} {b : List Byte} (hb : b.length ≠ announcedBurst w) :
    decode w b = .error .burstLength := if_neg hb

/-- R71, R72: a word in no row announces no burst. -/
theorem announcedBurst_of_illegal {w : Word} (hrow : rowOf w = none) : announcedBurst w = 0 := by
  rw [announcedBurst, hrow]

/-- R71, R72: without a burst, a word in no row is rejected by one of the two names. -/
theorem decode_of_illegal {w : Word} (hrow : rowOf w = none) :
    decode w [] = .error .unknownOpcode ∨ decode w [] = .error .reservedBits := by
  simp only [decode, announcedBurst_of_illegal hrow, hrow, List.length_nil, if_true]
  cases knownOpcode w with
  | true => exact .inr rfl
  | false => exact .inl rfl

/-- A transaction is a command exactly as one row of R70's table assembles it (R70, R74). -/
theorem decode_eq_ok_iff {w : Word} {b : List Byte} {i : Instr} :
    decode w b = .ok i ↔ ∃ r ∈ opcodeTable, r.Matches w = true ∧ b.length = r.burstLen w ∧ r.assemble w b = i := by
  refine ⟨fun h => ?_, fun ⟨r, hr, hmatch, hb, hi⟩ => hi ▸ decode_of_matches hr hmatch hb⟩
  by_cases hb : b.length = announcedBurst w
  · cases hrow : rowOf w with
    | none =>
      obtain rfl : b = [] := List.eq_nil_of_length_eq_zero (hb.trans (announcedBurst_of_illegal hrow))
      obtain he | he := decode_of_illegal hrow <;> simp [he] at h
    | some r =>
      obtain ⟨hr, hmatch⟩ := rowOf_eq_some_iff.mp hrow
      have hlen := hb.trans (announcedBurst_of_matches hr hmatch)
      exact ⟨r, hr, hmatch, hlen, Except.ok.inj ((decode_of_matches hr hmatch hlen).symm.trans h)⟩
  · rw [decode_of_length_ne hb] at h
    cases h

/-! ## Decoding what was encoded -/

/-- Every instruction's word lies in the row of its mnemonic (R70). -/
theorem matchesRow (i : Instr) : Laws.MatchesRow.Statement i := by
  cases i
  exacts [Laws.MatchesRow.tcClear _, Laws.MatchesRow.tcSetpri _ _, Laws.MatchesRow.tcGetpri _, Laws.MatchesRow.tcSetrep _,
    Laws.MatchesRow.tcSetsrc _ _, Laws.MatchesRow.tcGetsrc _, Laws.MatchesRow.tcSetdst _ _, Laws.MatchesRow.tcGetdst _,
    Laws.MatchesRow.tcSetmc _ _, Laws.MatchesRow.tcIsmc _, Laws.MatchesRow.tcSethop _ _, Laws.MatchesRow.tcGethop _,
    Laws.MatchesRow.tcSetlen _ _, Laws.MatchesRow.tcGetlen _, Laws.MatchesRow.tcSetcmd _ _, Laws.MatchesRow.tcGetcmd _,
    Laws.MatchesRow.tcSetfpb _ _, Laws.MatchesRow.tcClrfpb _, Laws.MatchesRow.tcGetfpb _, Laws.MatchesRow.tcSetlp _ _,
    Laws.MatchesRow.tcGetlp _ _, Laws.MatchesRow.tcClrlp _, Laws.MatchesRow.tcCalcchk _, Laws.MatchesRow.tcUpdchk _,
    Laws.MatchesRow.tcValidate _, Laws.MatchesRow.tcCopy _ _, Laws.MatchesRow.tcCopyhdr _ _, Laws.MatchesRow.tcTlen _,
    Laws.MatchesRow.tcRdbyte _ _, Laws.MatchesRow.tcWrbyte _ _ _, Laws.MatchesRow.aqAppend _ _ _ _,
    Laws.MatchesRow.aqPop, Laws.MatchesRow.aqLost, Laws.MatchesRow.aiBuild _, Laws.MatchesRow.aiLookup _]

/-- An instruction's encoding decodes to it when the row of its mnemonic announces its burst and assembles it. -/
theorem decode_encode_of_row {i : Instr} (k : Fin 35) (hname : (opcodeTable.get k).mnemonic = i.mnemonic)
    (hlen : (encodeBurst i).length = (opcodeTable.get k).burstLen (encodeWord i))
    (hasm : (opcodeTable.get k).assemble (encodeWord i) (encodeBurst i) = i) :
    decode (encodeWord i) (encodeBurst i) = .ok i := by
  obtain ⟨r, hr, hname', hmatch⟩ := matchesRow i
  obtain rfl : r = opcodeTable.get k := row_of_mnemonic hr (List.get_mem opcodeTable k) (hname'.trans hname.symm)
  exact decode_eq_ok_iff.mpr ⟨_, hr, hmatch, hlen, hasm⟩

/-- A field widened into the immediate is read back from the word (R61). -/
theorem immField_pack {n : Nat} (op : Byte) (f g : BitVec 4) (v : BitVec n) (hn : n ≤ 16 := by decide) :
    (pack op f g (v.setWidth 16)).extractLsb' 0 n = v := by
  rw [extract_pack _ _ _ _ 0 n (by omega), extract_setWidth v hn]

/-- The count field holds any burst length up to its maximum (R63). -/
theorem count_pack (op : Byte) (f g : BitVec 4) {k : Nat} (hk : k ≤ 255) :
    ((pack op f g ((BitVec.ofNat 8 k).setWidth 16)).extractLsb' 0 8).toNat = k := by
  rw [immField_pack, BitVec.toNat_ofNat]
  omega

theorem vlen_pack (op : Byte) (g : BitVec 4) (imm : Half) {k : Nat} (hk : k ≤ 15) :
    (slotField (pack op (BitVec.ofNat 4 k) g imm)).toNat = k := by
  rw [slotField_pack, BitVec.toNat_ofNat]
  omega

/-- TC.WRBYTE's offset, above its byte (R131). -/
theorem offset_pack (op : Byte) (f g : BitVec 4) (i : BitVec 5) (v : Byte) :
    (pack op f g (i.setWidth 8 ++ v)).extractLsb' 8 5 = i := by
  rw [extract_pack _ _ _ _ 8 5 (by decide), BitVec.extractLsb'_append_eq_of_le (by decide),
    BitVec.extractLsb'_setWidth_of_le (by decide), BitVec.extractLsb'_eq_self]

/-- An immediate that is one operand (R105, R107, R184). -/
theorem half_pack (op : Byte) (f g : BitVec 4) (a : Half) : (pack op f g a).extractLsb' 0 16 = a := by
  rw [extract_pack _ _ _ _ 0 16 (by decide), BitVec.extractLsb'_eq_self]

/-- The two bytes of an immediate that holds two. -/
theorem lowByte_pack (op : Byte) (f g : BitVec 4) (hi lo : Byte) :
    (pack op f g (hi ++ lo)).extractLsb' 0 8 = lo := by
  rw [extract_pack _ _ _ _ 0 8 (by decide), append_low]

theorem highByte_pack (op : Byte) (f g : BitVec 4) (hi lo : Byte) :
    (pack op f g (hi ++ lo)).extractLsb' 8 8 = hi := by
  rw [extract_pack _ _ _ _ 8 8 (by decide), append_high]

theorem kindField_pack (op : Byte) (f : BitVec 4) (kind : BitVec 2) (imm : Half) :
    (pack op f (kind.setWidth 4) imm).extractLsb' 16 2 = kind := by
  rw [kind_pack]
  revert kind
  decide

/-- Settles O1: the row of an instruction's mnemonic reads each operand back from the field its encoding put it in. -/
theorem decodeOfEncodeGivesInstructionBack : Obligations.DecodeOfEncodeGivesInstructionBack
  | .tcClear _, _ => decode_encode_of_row 0 rfl rfl (congrArg Instr.tcClear (slotField_pack ..))
  | .tcSetpri _ _, _ => decode_encode_of_row 1 rfl rfl (congrArg₂ Instr.tcSetpri (slotField_pack ..) (immField_pack ..))
  | .tcGetpri _, _ => decode_encode_of_row 2 rfl rfl (congrArg Instr.tcGetpri (slotField_pack ..))
  | .tcSetrep _, _ => decode_encode_of_row 3 rfl rfl (congrArg Instr.tcSetrep (slotField_pack ..))
  | .tcSetsrc _ _, _ => decode_encode_of_row 4 rfl rfl (congrArg₂ Instr.tcSetsrc (slotField_pack ..) (half_pack ..))
  | .tcGetsrc _, _ => decode_encode_of_row 5 rfl rfl (congrArg Instr.tcGetsrc (slotField_pack ..))
  | .tcSetdst _ _, _ => decode_encode_of_row 6 rfl rfl (congrArg₂ Instr.tcSetdst (slotField_pack ..) (half_pack ..))
  | .tcGetdst _, _ => decode_encode_of_row 7 rfl rfl (congrArg Instr.tcGetdst (slotField_pack ..))
  | .tcSetmc _ _, _ => decode_encode_of_row 8 rfl rfl (congrArg₂ Instr.tcSetmc (slotField_pack ..) (immField_pack ..))
  | .tcIsmc _, _ => decode_encode_of_row 9 rfl rfl (congrArg Instr.tcIsmc (slotField_pack ..))
  | .tcSethop _ _, _ => decode_encode_of_row 10 rfl rfl (congrArg₂ Instr.tcSethop (slotField_pack ..) (immField_pack ..))
  | .tcGethop _, _ => decode_encode_of_row 11 rfl rfl (congrArg Instr.tcGethop (slotField_pack ..))
  | .tcSetlen _ _, _ => decode_encode_of_row 12 rfl rfl (congrArg₂ Instr.tcSetlen (slotField_pack ..) (immField_pack ..))
  | .tcGetlen _, _ => decode_encode_of_row 13 rfl rfl (congrArg Instr.tcGetlen (slotField_pack ..))
  | .tcSetcmd _ _, _ => decode_encode_of_row 14 rfl rfl (congrArg₂ Instr.tcSetcmd (slotField_pack ..) (immField_pack ..))
  | .tcGetcmd _, _ => decode_encode_of_row 15 rfl rfl (congrArg Instr.tcGetcmd (slotField_pack ..))
  | .tcSetfpb _ _, _ => decode_encode_of_row 16 rfl rfl (congrArg₂ Instr.tcSetfpb (slotField_pack ..) (immField_pack ..))
  | .tcClrfpb _, _ => decode_encode_of_row 17 rfl rfl (congrArg Instr.tcClrfpb (slotField_pack ..))
  | .tcGetfpb _, _ => decode_encode_of_row 18 rfl rfl (congrArg Instr.tcGetfpb (slotField_pack ..))
  | .tcSetlp _ data, hdata => decode_encode_of_row 19 rfl (count_pack _ _ _ hdata).symm
    (congrArg (Instr.tcSetlp · data) (slotField_pack ..))
  | .tcGetlp _ _, _ => decode_encode_of_row 20 rfl rfl (congrArg₂ Instr.tcGetlp (slotField_pack ..) (immField_pack ..))
  | .tcClrlp _, _ => decode_encode_of_row 21 rfl rfl (congrArg Instr.tcClrlp (slotField_pack ..))
  | .tcCalcchk _, _ => decode_encode_of_row 22 rfl rfl (congrArg Instr.tcCalcchk (slotField_pack ..))
  | .tcUpdchk _, _ => decode_encode_of_row 23 rfl rfl (congrArg Instr.tcUpdchk (slotField_pack ..))
  | .tcValidate _, _ => decode_encode_of_row 24 rfl rfl (congrArg Instr.tcValidate (slotField_pack ..))
  | .tcCopy _ _, _ => decode_encode_of_row 25 rfl rfl (congrArg₂ Instr.tcCopy (slotField_pack ..) (sourceField_pack ..))
  | .tcCopyhdr _ _, _ => decode_encode_of_row 26 rfl rfl
    (congrArg₂ Instr.tcCopyhdr (slotField_pack ..) (sourceField_pack ..))
  | .tcTlen _, _ => decode_encode_of_row 27 rfl rfl (congrArg Instr.tcTlen (slotField_pack ..))
  | .tcRdbyte _ _, _ => decode_encode_of_row 28 rfl rfl (congrArg₂ Instr.tcRdbyte (slotField_pack ..) (immField_pack ..))
  | .tcWrbyte _ _ _, _ => decode_encode_of_row 29 rfl rfl
    (congr (congrArg₂ Instr.tcWrbyte (slotField_pack ..) (offset_pack ..)) (lowByte_pack ..))
  | .aqAppend _ _ _ data, hdata => decode_encode_of_row 30 rfl (vlen_pack _ _ _ hdata).symm
    (congrFun (congr (congrArg₂ Instr.aqAppend (kindField_pack ..) (highByte_pack ..)) (lowByte_pack ..)) data)
  | .aqPop, _ => decode_encode_of_row 31 rfl rfl rfl
  | .aqLost, _ => decode_encode_of_row 32 rfl rfl rfl
  | .aiBuild objs, hobjs => decode_encode_of_row 33 rfl
    ((length_descriptorBytes objs).trans (congrArg (3 * ·) (count_pack _ _ _ hobjs).symm))
    (congrArg Instr.aiBuild (descriptorsOf_flatMap objs))
  | .aiLookup _, _ => decode_encode_of_row 34 rfl rfl (congrArg Instr.aiLookup (half_pack ..))

/-! ## Encoding what was decoded -/

/-- A reserved field of a word in a row is zero (R72). -/
theorem zero_eq_of_reserved {n : Nat} {x : BitVec n} (hx : x &&& BitVec.allOnes n = 0) : 0 = x :=
  hx.symm.trans BitVec.and_allOnes

/-- A source field with its high bits reserved is the kind (R161). -/
theorem kind_of_reserved {w : Word} (h : sourceField w &&& 0xC = 0) : (w.extractLsb' 16 2).setWidth 4 = sourceField w := by
  have hlow : ∀ g : BitVec 4, g &&& 0xC = 0 → (g.setWidth 2).setWidth 4 = g := by decide
  rw [← hlow _ h, sourceField, BitVec.setWidth_extractLsb'_of_le (len₁ := 2) (by decide)]

/-- The immediate from its two bytes. -/
theorem bytes_of_imm (w : Word) : (w.extractLsb' 8 8 ++ w.extractLsb' 0 8 : Half) = w.extractLsb' 0 16 :=
  BitVec.extractLsb'_append_extractLsb'_eq_extractLsb' rfl

/-- An immediate with its three high bits reserved is TC.WRBYTE's offset and byte (R131). -/
theorem offset_of_reserved {w : Word} (h : w.extractLsb' 0 16 &&& 0xE000 = 0) :
    ((w.extractLsb' 8 5).setWidth 8 ++ w.extractLsb' 0 8 : Half) = w.extractLsb' 0 16 := by
  have hlow : ∀ x : Byte, x &&& 0xE0 = 0 → (x.setWidth 5).setWidth 8 = x := by decide
  have hhigh : w.extractLsb' 8 8 &&& 0xE0 = 0 := by
    have := congrArg (fun x : Half => x.extractLsb' 8 8) h
    rwa [BitVec.extractLsb'_and, BitVec.extractLsb'_extractLsb'_of_le (by decide)] at this
  rw [← bytes_of_imm, ← hlow (w.extractLsb' 8 8) hhigh, BitVec.setWidth_extractLsb'_of_le (len₁ := 5) (by decide)]

/-- An immediate whose high bits are reserved is the operand in its low bits, widened. -/
theorem imm_of_reserved {w : Word} {n : Nat} (hn : n ≤ 16) (h : w.extractLsb' 0 16 &&& BitVec.allOnes 16 <<< n = 0) :
    (w.extractLsb' 0 n).setWidth 16 = w.extractLsb' 0 16 := by
  have hlow := imm_of_low _ h
  rwa [BitVec.extractLsb'_extractLsb'_of_le (by omega)] at hlow

section
variable {r : Row} {w : Word} {op : Byte} {f g mf mg : BitVec 4} {imm mi : Half} (hp : r.pattern = pack op 0 0 0)
include hp

/-- A word is packed from its row's opcode and from fields that agree with it wherever the row leaves them free. -/
theorem pack_of_matches (hm : r.mask = pack 0xFF mf mg mi) (hf : slotField w &&& mf = 0 → f = slotField w)
    (hg : sourceField w &&& mg = 0 → g = sourceField w)
    (himm : w.extractLsb' 0 16 &&& mi = 0 → imm = w.extractLsb' 0 16) (h : r.Matches w = true) :
    pack op f g imm = w := by
  obtain ⟨hop, hslot, hsource, hlow⟩ := fields_of_matches h hm hp
  rw [← hop, hf hslot, hg hsource, himm hlow, pack_fields]

/-- A row without an operand (R62, format N). -/
theorem pack_of_plainRow (hm : r.mask = pack 0xFF (BitVec.allOnes 4) (BitVec.allOnes 4) (BitVec.allOnes 16)) :
    r.Matches w = true → pack op 0 0 0 = w :=
  pack_of_matches hp hm zero_eq_of_reserved zero_eq_of_reserved zero_eq_of_reserved

/-- A row with a slot (R62, format S). -/
theorem pack_of_slotRow (hm : r.mask = pack 0xFF 0 (BitVec.allOnes 4) (BitVec.allOnes 16)) :
    r.Matches w = true → pack op (slotField w) 0 0 = w :=
  pack_of_matches hp hm (fun _ => rfl) zero_eq_of_reserved zero_eq_of_reserved

/-- A row with two slots (R62, format SS). -/
theorem pack_of_slotsRow (hm : r.mask = pack 0xFF 0 0 (BitVec.allOnes 16)) :
    r.Matches w = true → pack op (slotField w) (sourceField w) 0 = w :=
  pack_of_matches hp hm (fun _ => rfl) (fun _ => rfl) zero_eq_of_reserved

/-- A row with a slot and n immediate bits (R62, format SI). -/
theorem pack_of_slotImmRow (n : Nat) (hm : r.mask = pack 0xFF 0 (BitVec.allOnes 4) (BitVec.allOnes 16 <<< n))
    (hn : n ≤ 16 := by decide) :
    r.Matches w = true → pack op (slotField w) 0 ((w.extractLsb' 0 n).setWidth 16) = w :=
  pack_of_matches hp hm (fun _ => rfl) zero_eq_of_reserved (imm_of_reserved hn)

/-- A row with n immediate bits (R62, format I). -/
theorem pack_of_immRow (n : Nat) (hm : r.mask = pack 0xFF (BitVec.allOnes 4) (BitVec.allOnes 4) (BitVec.allOnes 16 <<< n))
    (hn : n ≤ 16 := by decide) : r.Matches w = true → pack op 0 0 ((w.extractLsb' 0 n).setWidth 16) = w :=
  pack_of_matches hp hm zero_eq_of_reserved zero_eq_of_reserved (imm_of_reserved hn)

end

/-- The length of a burst that its count field gives is that field (R63). -/
theorem ofNat_eq_of_eq_toNat {n k : Nat} {x : BitVec n} (h : k = x.toNat) : BitVec.ofNat n k = x := by
  rw [h, BitVec.ofNat_toNat, BitVec.setWidth_eq]

section
variable {w : Word} {b : List Byte}

theorem encodeWord_assemble_header :
    ∀ r ∈ headerRows, r.Matches w = true → encodeWord (r.assemble w b) = w := by
  simp only [headerRows, List.forall_mem_cons, List.not_mem_nil, false_implies, implies_true, and_true]
  exact ⟨pack_of_slotRow rfl rfl, pack_of_slotImmRow rfl 2 rfl, pack_of_slotRow rfl rfl, pack_of_slotRow rfl rfl,
    pack_of_slotImmRow rfl 16 rfl, pack_of_slotRow rfl rfl, pack_of_slotImmRow rfl 16 rfl, pack_of_slotRow rfl rfl,
    pack_of_slotImmRow rfl 1 rfl, pack_of_slotRow rfl rfl, pack_of_slotImmRow rfl 3 rfl, pack_of_slotRow rfl rfl,
    pack_of_slotImmRow rfl 4 rfl, pack_of_slotRow rfl rfl⟩

theorem encodeWord_assemble_payload :
    ∀ r ∈ payloadRows, b.length = r.burstLen w → r.Matches w = true → encodeWord (r.assemble w b) = w := by
  simp only [payloadRows, List.forall_mem_cons, List.not_mem_nil, false_implies, implies_true, and_true]
  refine ⟨fun _ => pack_of_slotImmRow rfl 4 rfl, fun _ => pack_of_slotRow rfl rfl, fun _ => pack_of_slotImmRow rfl 6 rfl,
    fun _ => pack_of_slotRow rfl rfl, fun _ => pack_of_slotRow rfl rfl, fun hsetlp => ?_,
    fun _ => pack_of_slotImmRow rfl 8 rfl, fun _ => pack_of_slotRow rfl rfl, fun _ => pack_of_slotRow rfl rfl,
    fun _ => pack_of_slotRow rfl rfl, fun _ => pack_of_slotRow rfl rfl, fun _ => pack_of_slotsRow rfl rfl,
    fun _ => pack_of_slotsRow rfl rfl, fun _ => pack_of_slotRow rfl rfl, fun _ => pack_of_slotImmRow rfl 5 rfl,
    fun _ => pack_of_matches rfl (mf := 0) (mg := BitVec.allOnes 4) (mi := 0xE000) rfl (fun _ => rfl) zero_eq_of_reserved
      offset_of_reserved⟩
  rw [encodeWord, ofNat_eq_of_eq_toNat hsetlp]
  exact pack_of_slotImmRow rfl 8 rfl

theorem encodeWord_assemble_queue :
    ∀ r ∈ queueRows, b.length = r.burstLen w → r.Matches w = true → encodeWord (r.assemble w b) = w := by
  simp only [queueRows, List.forall_mem_cons, List.not_mem_nil, false_implies, implies_true, and_true]
  refine ⟨fun happend => ?_, fun _ => pack_of_plainRow rfl rfl, fun _ => pack_of_plainRow rfl rfl⟩
  rw [encodeWord, ofNat_eq_of_eq_toNat happend]
  exact pack_of_matches rfl (mf := 0) (mg := 0xC) (mi := 0) rfl (fun _ => rfl) kind_of_reserved fun _ => bytes_of_imm w

theorem encodeWord_assemble_index :
    ∀ r ∈ indexRows, b.length = r.burstLen w → r.Matches w = true → encodeWord (r.assemble w b) = w := by
  simp only [indexRows, List.forall_mem_cons, List.not_mem_nil, false_implies, implies_true, and_true]
  refine ⟨fun hbuild => ?_, fun _ => pack_of_immRow rfl 16 rfl⟩
  rw [encodeWord, (flatMap_descriptorsOf _ b hbuild).2, BitVec.ofNat_toNat, BitVec.setWidth_eq]
  exact pack_of_immRow rfl 8 rfl

/-- No bit of a word in a row is dropped (R63, R72): its command's word is that word. -/
theorem encodeWord_assemble {r : Row} (hr : r ∈ opcodeTable) (hb : b.length = r.burstLen w) (h : r.Matches w = true) :
    encodeWord (r.assemble w b) = w := by
  simp only [opcodeTable, List.mem_append] at hr
  obtain hr | hr | hr | hr := hr
  · exact encodeWord_assemble_header r hr h
  · exact encodeWord_assemble_payload r hr hb h
  · exact encodeWord_assemble_queue r hr hb h
  · exact encodeWord_assemble_index r hr hb h

/-- Nor is a byte of its burst (R63). -/
theorem encodeBurst_assemble {r : Row} (hr : r ∈ opcodeTable) (hb : b.length = r.burstLen w) :
    encodeBurst (r.assemble w b) = b := by
  revert r
  simp only [opcodeTable, headerRows, payloadRows, queueRows, indexRows, List.forall_mem_append, List.forall_mem_cons,
    List.not_mem_nil, false_implies, implies_true, and_true, true_and, noBurst, List.length_eq_zero_iff, encodeBurst,
    eq_comm (a := []) (b := b), imp_self]
  exact fun hbuild => (flatMap_descriptorsOf _ b hbuild).1

end

/-- Settles O2: the row that assembled a command keeps every operand bit of the word and every byte of the burst. -/
theorem encodeOfDecodeGivesTransactionBack : Obligations.EncodeOfDecodeGivesTransactionBack := by
  intro w b i hdecode
  obtain ⟨r, hr, hmatch, hb, rfl⟩ := decode_eq_ok_iff.mp hdecode
  exact ⟨Prod.ext (encodeWord_assemble hr hb hmatch) (encodeBurst_assemble hr hb), wellFormed_of_decode hdecode⟩

/-! ## The opcode table -/

/-- A row assembles commands of its own mnemonic. -/
theorem mnemonic_assemble {r : Row} (hr : r ∈ opcodeTable) (w : Word) (b : List Byte) :
    (r.assemble w b).mnemonic = r.mnemonic := by
  revert r
  simp only [opcodeTable, headerRows, payloadRows, queueRows, indexRows, List.forall_mem_append, List.forall_mem_cons,
    List.not_mem_nil, false_implies, implies_true, and_true, Instr.mnemonic]

/-- Settles O3: what decodes was assembled by the one row it matches, and that row is told by its mnemonic. -/
theorem decodeFollowsOpcodeTable : Obligations.DecodeFollowsOpcodeTable := by
  refine ⟨rfl, fun w r hr b hb => ⟨fun ⟨i, hdecode, hname⟩ => ?_, fun h => ?_⟩, fun w r hr r' hr' h h' => ?_⟩
  · obtain ⟨r', hr', hmatch, -, rfl⟩ := decode_eq_ok_iff.mp hdecode
    obtain rfl : r' = r := row_of_mnemonic hr' hr ((mnemonic_assemble hr' w b).symm.trans hname)
    exact Row.matches_iff.mp hmatch
  · have hmatch := Row.matches_iff.mpr h
    exact ⟨_, decode_of_matches hr hmatch (hb.trans (announcedBurst_of_matches hr hmatch)), mnemonic_assemble hr w b⟩
  · rw [row_unique hr hr' (Row.matches_iff.mpr h) (Row.matches_iff.mpr h')]

/-- Three rows take a burst, the others none (R74). -/
theorem burstLen_eq_zero {r : Row} (hr : r ∈ opcodeTable) {w : Word} (h : w &&& r.mask = r.pattern)
    (hsetlp : w &&& 0xFF0FFF00 ≠ 0x13000000) (happend : w &&& 0xFF0C0000 ≠ 0x40000000)
    (hbuild : w &&& 0xFFFFFF00 ≠ 0x50000000) : r.burstLen w = 0 := by
  revert r
  simp only [opcodeTable, headerRows, payloadRows, queueRows, indexRows, List.forall_mem_append, List.forall_mem_cons,
    List.not_mem_nil, false_implies, implies_true, and_true, true_and, noBurst]
  exact ⟨fun h => absurd h hsetlp, fun h => absurd h happend, fun h => absurd h hbuild⟩

/-- Settles O5: the three rows with a burst in turn, then every other row, then the illegal words. -/
theorem burstLengthIsOfWordAlone : Obligations.BurstLengthIsOfWordAlone := by
  intro w
  split_ifs with hsetlp happend hbuild
  · exact announcedBurst_of_matches (row_mem 19 (by decide)) (Row.matches_iff.mpr hsetlp)
  · exact announcedBurst_of_matches (row_mem 30 (by decide)) (Row.matches_iff.mpr happend)
  · exact announcedBurst_of_matches (row_mem 33 (by decide)) (Row.matches_iff.mpr hbuild)
  · cases hrow : rowOf w with
    | none => exact announcedBurst_of_illegal hrow
    | some r =>
      obtain ⟨hr, hmatch⟩ := rowOf_eq_some_iff.mp hrow
      rw [announcedBurst_of_matches hr hmatch]
      exact burstLen_eq_zero hr (Row.matches_iff.mp hmatch) hsetlp happend hbuild

/-- Settles O6, by evaluating the decoder on each word. -/
theorem wordsOfTheSpecDecode : Obligations.WordsOfTheSpecDecode :=
  ⟨rfl, rfl, rfl, rfl, rfl, rfl, rfl, rfl, rfl⟩

end Sys2Proof
end

section
/-! PROOFS. Every transaction is answered or refused by name, what a response's word and burst carry, and the expansion of
TC.LOAD (spec/30_encoding.md R63 to R66, R71 to R78). -/

namespace Sys2Proof.Machine

/-! ## Every transaction is answered, or refused by name -/

/-- A command ends by its response (R60). -/
theorem Effect.exists_response {i : Instr} {s t : State} (h : Effect i s t) : ∃ r, t.response = some r := by
  cases h <;> exact ⟨_, rfl⟩

/-- Settles O4: a word lies in a row, whose command answers on every state, or in none. -/
theorem decodingIsTotal : Obligations.DecodingIsTotal := by
  intro w b hb
  cases hrow : rowOf w with
  | none =>
    obtain rfl : b = [] := List.eq_nil_of_length_eq_zero (hb.trans (announcedBurst_of_illegal hrow))
    exact .inr ⟨rfl, rowOf_eq_none_iff.mp hrow, decode_of_illegal hrow⟩
  | some r =>
    obtain ⟨hr, hmatch⟩ := rowOf_eq_some_iff.mp hrow
    have hdecode := decode_of_matches hr hmatch (hb.trans (announcedBurst_of_matches hr hmatch))
    refine .inl ⟨_, hdecode, wellFormed_of_decode hdecode, fun s => ?_⟩
    obtain ⟨t, hexec, heffect⟩ := exec_effect (r.assemble w b) s
    obtain ⟨response, hresponse⟩ := heffect.exists_response
    exact ⟨t, response, hexec, hresponse⟩

section
variable {s : State} {w : Word} {b : List Byte} {rest : List PortEvent} (hwf : s.cfg.wf)
include hwf

/-- R71, R72: the step on an illegal word. -/
theorem step_of_illegal (hin : s.input = .command w [] :: rest) (hrow : rowOf w = none) :
    step s = .next { s with input := rest, response := some ⟨.errIllegal, 0, 0, []⟩ } := by
  obtain hdecode | hdecode := decode_of_illegal hrow <;>
    simp only [step, fetch_command hwf hin, hdecode] <;> rfl

/-- R63, X1: the step on a transaction whose burst has the wrong length. -/
theorem step_of_length_ne (hin : s.input = .command w b :: rest) (hb : b.length ≠ announcedBurst w) :
    step s = .refused .burstLength := by
  simp only [step, fetch_command hwf hin, decode_of_length_ne hb]
  rfl

end

/-- R71: the opcodes that no command has. -/
abbrev Unassigned (op : Nat) : Prop := (0x1E ≤ op ∧ op ≤ 0x3F) ∨ (0x43 ≤ op ∧ op ≤ 0x4F) ∨ 0x52 ≤ op

theorem not_unassigned_of_row : ∀ r ∈ opcodeTable, ¬ Unassigned (opField r.pattern).toNat := by
  decide

/-- Settles O8: a word in a row has that row's opcode, which is no unassigned one and no other row's. -/
theorem illegalWordAnswersErrIllegal : Obligations.IllegalWordAnswersErrIllegal := by
  refine ⟨?_, ?_⟩
  · intro s w rest hwf hin op hop
    refine step_of_illegal hwf hin (rowOf_eq_none_iff.mpr fun r hr h => not_unassigned_of_row r hr ?_)
    rw [← opField_of_matches hr (Row.matches_iff.mpr h)]
    exact hop
  · intro s w rest hwf hin r hr hop hne
    refine step_of_illegal hwf hin (rowOf_eq_none_iff.mpr fun r' hr' h => hne ?_)
    have hsame : opField r'.pattern = opField r.pattern := (opField_of_matches hr' (Row.matches_iff.mpr h)).symm.trans hop
    obtain rfl : r' = r := List.inj_on_of_nodup_map opcodeTable_opcodes_distinct hr' hr hsame
    exact h

/-- Settles O9: the port's transaction is rejected by the decoder, a configuration that is none before the port is read. -/
theorem malformedTransactionIsRefused : Obligations.MalformedTransactionIsRefused :=
  ⟨fun _ _ _ _ hwf hin hb => step_of_length_ne hwf hin hb, fun s hwf => by simp only [step, fetch, if_neg hwf]⟩

/-! ## Responses -/

/-- R65: ERR_ILLEGAL is no command's status. -/
theorem Effect.status_ne_errIllegal {i : Instr} {s t : State} {r : Response} (h : Effect i s t) (hr : t.response = some r) :
    r.status ≠ .errIllegal := by
  cases h with
  | answered r' _ _ noIllegal => cases hr; exact noIllegal
  | stored | queued | popped | built => cases hr; nofun

/-- Settles O16: a command either only answers, with what its form says of the status, or does its work and answers OK. -/
theorem statusesAndTheirProducers : Obligations.StatusesAndTheirProducers := by
  refine ⟨⟨rfl, rfl, rfl, rfl, rfl⟩, fun st => ?_, fun i s t hexec => ?_,
    fun s t w b rest hin hstep hresponse i hdecode => ?_⟩
  · cases st <;> decide
  · cases effect_of_exec hexec with
    | answered r fits _ noIllegal empty notFound errArg =>
      obtain ⟨hbare, -⟩ := fits
      exact ⟨r, rfl, fun hne => by rw [hbare hne]; rfl, noIllegal, empty, notFound, errArg⟩
    | stored | queued | built => exact ⟨bare .ok, rfl, by simp [bare]⟩
    | popped => exact ⟨_, rfl, by simp⟩
  · obtain ⟨hwf, -⟩ := stepEffect_of_step hstep
    rw [stepRunsDecodedCommand s w b rest i hwf hin hdecode] at hstep
    exact (effect_of_exec hstep).status_ne_errIllegal hresponse rfl

theorem extract_word_value (r : Response) {k n : Nat} (h : k + n ≤ 16) :
    r.word.extractLsb' k n = r.value.extractLsb' k n :=
  BitVec.extractLsb'_append_eq_of_add_le h

theorem extract_word_aux (r : Response) {k n : Nat} (h : k + n ≤ 8) :
    r.word.extractLsb' (16 + k) n = r.aux.extractLsb' k n := by
  rw [Response.word, BitVec.extractLsb'_append_eq_of_le (Nat.le_add_right 16 k), Nat.add_sub_cancel_left,
    BitVec.extractLsb'_append_eq_of_add_le h]

/-- R64: the fields of a response word. -/
theorem extract_word (r : Response) : r.word.extractLsb' 28 4 = statusCode r.status ∧ r.word.extractLsb' 24 4 = 0 ∧
    r.word.extractLsb' 16 8 = r.aux ∧ r.word.extractLsb' 0 16 = r.value := by
  refine ⟨?_, ?_, ?_, ?_⟩
  · rw [Response.word, BitVec.extractLsb'_append_eq_of_le (by decide), BitVec.extractLsb'_append_eq_of_le (by decide),
      BitVec.extractLsb'_append_eq_left]
  · rw [Response.word, BitVec.extractLsb'_append_eq_of_le (by decide), BitVec.extractLsb'_append_eq_of_le (by decide),
      BitVec.extractLsb'_append_eq_right]
  · exact (extract_word_aux r (k := 0) le_rfl).trans BitVec.extractLsb'_eq_self
  · exact (extract_word_value r le_rfl).trans BitVec.extractLsb'_eq_self

/-- The response to a pop of the entry e (R163). -/
def Response.popped (e : Entry) : Response := ⟨.ok, entryAux e, entryValue e, e.data⟩

/-- R163: a pop takes the oldest entry. -/
theorem exec_aqPop {s : State} {e : Entry} {q : List Entry} (hq : s.queue = e :: q) :
    exec .aqPop s = .next { s with queue := q, response := some (Response.popped e) } := by
  simp only [exec, execAqPop, hq]
  rfl

/-- R64: the fields of a pop's response word. -/
theorem extract_popped_word (e : Entry) :
    (Response.popped e).word.extractLsb' 20 4 = BitVec.ofNat 4 e.data.length ∧
    (Response.popped e).word.extractLsb' 18 2 = 0 ∧ (Response.popped e).word.extractLsb' 16 2 = kindCode e.kind ∧
    (Response.popped e).word.extractLsb' 8 8 = e.index ∧ (Response.popped e).word.extractLsb' 0 8 = e.short := by
  refine ⟨(extract_word_aux _ (k := 4) le_rfl).trans ?_, (extract_word_aux _ (k := 2) (by decide)).trans ?_,
    (extract_word_aux _ (k := 0) (by decide)).trans ?_, (extract_word_value _ le_rfl).trans ?_,
    (extract_word_value _ (by decide)).trans ?_⟩
  · exact (BitVec.extractLsb'_append_eq_of_le (by decide)).trans BitVec.extractLsb'_append_eq_left
  · exact entryAux_reserved e
  · exact BitVec.extractLsb'_append_eq_right
  · exact BitVec.extractLsb'_append_eq_left
  · exact BitVec.extractLsb'_append_eq_right

/-- The low 24 bits of a word are its fields below the opcode (R61). -/
theorem fields_below_opcode (w : Word) :
    (slotField w ++ sourceField w ++ w.extractLsb' 0 16 : BitVec 24) = w.extractLsb' 0 24 := by
  rw [slotField, sourceField, BitVec.extractLsb'_append_extractLsb'_eq_extractLsb' (start₂ := 20) rfl]
  exact BitVec.extractLsb'_append_extractLsb'_eq_extractLsb' rfl

/-- R64: a pop's response word ends as the append's command word does. -/
theorem extract_popped_word_low (e : Entry) : (Response.popped e).word.extractLsb' 0 24 =
    (encodeWord (.aqAppend (kindCode e.kind) e.index e.short e.data)).extractLsb' 0 24 := by
  obtain ⟨hlen, hzero, hkind, -, -⟩ := extract_popped_word e
  obtain ⟨-, -, -, hvalue⟩ := extract_word (Response.popped e)
  have hwide : ∀ k : BitVec 2, (0 : BitVec 2) ++ k = k.setWidth 4 := by decide
  have hsource : sourceField (Response.popped e).word = (kindCode e.kind).setWidth 4 := by
    rw [sourceField, ← hwide, ← hzero, ← hkind]
    exact (BitVec.extractLsb'_append_extractLsb'_eq_extractLsb' (start₁ := 16) (len₁ := 2) rfl).symm
  rw [← fields_below_opcode, ← fields_below_opcode, encodeWord, slotField_pack, sourceField_pack, half_pack, slotField,
    hlen, hsource, hvalue]
  rfl

/-- Settles O22: the parts on words by their fields, the part on every command by the forms of a command's answer. -/
theorem responseWordLayout : Obligations.ResponseWordLayout := by
  refine ⟨extract_word, fun i s t r hexec hr => ?_, fun s e q hq he => ?_,
    fun s kind index short data hwf hq hkind hdata => ?_⟩
  · cases effect_of_exec hexec with
    | answered r' fits getter _ _ _ _ aux =>
      obtain rfl : r' = r := Option.some.inj hr
      obtain ⟨hbare, -⟩ := fits
      have hvalue : r'.status ≠ .ok → r'.value = 0 := fun hne => by rw [hbare hne]; rfl
      exact ⟨.inl aux, hvalue, fun hwrites _ => hvalue (mt getter hwrites)⟩
    | stored | queued | built =>
      obtain rfl : bare .ok = r := Option.some.inj hr
      exact ⟨.inl rfl, fun _ => rfl, fun _ _ => rfl⟩
    | popped e q cmd =>
      obtain rfl : .popped e = r := Option.some.inj hr
      exact ⟨.inr ⟨cmd, rfl⟩, fun hne => absurd rfl hne, fun _ hne => absurd cmd hne⟩
  · obtain ⟨hlen, hzero, hkind, hindex, hshort⟩ := extract_popped_word e
    refine ⟨_, _, exec_aqPop hq, rfl, rfl, ?_, hzero, hkind, hindex, hshort, extract_popped_word_low e⟩
    rw [hlen, BitVec.toNat_ofNat]
    omega
  · obtain ⟨k, hk⟩ := Option.ne_none_iff_exists'.mp (mt kindOfCode_eq_none hkind)
    obtain rfl := kindCode_of_kindOfCode hk
    have hqueue : (s.enqueue ⟨k, index, short, data⟩).queue = [⟨k, index, short, data⟩] := by
      rw [State.enqueue_queue, hq, List.tail_nil, ite_self, List.nil_append]
    exact ⟨_, _, _, exec_aqAppend index short hk (longMax_of_wf hwf ▸ hdata), exec_aqPop hqueue, rfl,
      extract_popped_word_low ⟨k, index, short, data⟩, rfl⟩

/-- TC.GETLP's answer on a slot that exists (R127). -/
theorem exec_tcGetlp {s : State} {f : Slot} (hf : f.toNat < s.cfg.nframes) (n : Byte) : exec (.tcGetlp f n) s =
    .next { s with response := some ⟨.ok, 0, 0, s.bytes f.toNat 8 (clampCount s.cfg n.toNat)⟩ } :=
  withSlot_of_lt hf

/-- Settles O23: the two commands with a burst, and the forms of every other command's answer. -/
theorem responseBursts : Obligations.ResponseBursts := by
  refine ⟨fun s f n hwf hf => ?_, fun s e q hq => ⟨_, _, exec_aqPop hq, rfl, rfl, rfl⟩,
    fun i s t r hexec hr hno => ?_⟩
  · refine ⟨_, _, exec_tcGetlp hf n, rfl, rfl, ?_, fun k hk => State.getElem_bytes s f.toNat 8 _ k hk⟩
    rw [State.length_bytes, clampCount, longMax_of_wf hwf]
  · cases effect_of_exec hexec with
    | answered r' fits _ _ _ _ _ _ burst =>
      obtain rfl : r' = r := Option.some.inj hr
      obtain ⟨hbare, -⟩ := fits
      obtain hne | ⟨hgetlp, -⟩ := hno
      · rw [hbare hne]; rfl
      · exact burst hgetlp
    | stored | queued | built => exact congrArg Response.burst (Option.some.inj hr).symm
    | popped e q cmd =>
      obtain rfl : .popped e = r := Option.some.inj hr
      obtain hne | ⟨-, hpop⟩ := hno
      · exact absurd rfl hne
      · exact absurd cmd hpop

/-! ## TC.LOAD -/

/-- Storing does not look at the response. -/
theorem State.setBytes_withResponse (s : State) (p : Option Response) (f i : Nat) (bs : List Byte) :
    { s with response := p }.setBytes f i bs = { s.setBytes f i bs with response := p } := by
  induction bs generalizing s i with
  | nil => rfl
  | cons b bs ih => exact ih (s.setByte f i b) (i + 1)

/-- TC.WRBYTE on a slot and an offset that exist (R131). -/
theorem exec_tcWrbyte_ofNat {s : State} {f : Slot} {k : Nat} (hwf : s.cfg.wf) (hf : f.toNat < s.cfg.nframes) (b : Byte)
    (hk : k < 23) :
    exec (.tcWrbyte f (BitVec.ofNat 5 k) b) s = .next { s.setByte f.toNat k b with response := some (bare .ok) } := by
  have hoffset : (BitVec.ofNat 5 k).toNat = k := Nat.mod_eq_of_lt (by omega)
  have hin : (BitVec.ofNat 5 k).toNat < s.cfg.frameBytes := by rwa [hoffset, frameBytes_of_wf hwf]
  refine ((withSlot_of_lt hf).trans (if_pos hin)).trans ?_
  rw [hoffset]
  rfl

/-- R76: the writes of TC.LOAD from offset k on store the run and answer OK. -/
theorem execAll_loadFrom {f : Slot} (b : Byte) (bs : List Byte) {s : State} {k : Nat} (hwf : s.cfg.wf)
    (hf : f.toNat < s.cfg.nframes) (hk : k + (b :: bs).length ≤ 23) :
    execAll (loadFrom f k (b :: bs)) s = .next { s.setBytes f.toNat k (b :: bs) with response := some (bare .ok) } := by
  induction bs generalizing b s k with
  | nil =>
    simp only [loadFrom, execAll, exec_tcWrbyte_ofNat hwf hf b (show k < 23 by simpa using hk)]
    rfl
  | cons b' bs ih =>
    simp only [List.length_cons] at hk
    rw [loadFrom, execAll, exec_tcWrbyte_ofNat hwf hf b (show k < 23 by omega)]
    refine (ih b' (s := { s.setByte f.toNat k b with response := some (bare .ok) }) hwf hf
      (by rw [List.length_cons]; omega)).trans ?_
    rw [State.setBytes_withResponse]
    rfl

/-- Settles O50, by induction on the listed bytes. -/
theorem loadExpansionStoresBytes : Obligations.LoadExpansionStoresBytes := by
  intro s f bs hwf hf hne hle
  match bs with
  | b :: bs =>
    exact ⟨_, execAll_loadFrom b bs hwf hf (by omega), storedRun_setBytes s f.toNat 0 (b :: bs)⟩

end Sys2Proof.Machine
end

section
/-! PROOFS. What each setter and getter of a frame's fields does on a slot that exists, the fields of a byte after one of them
was replaced, and that the units share no state (spec/40_tc_header_fields.md R100 to R114, spec/10_state.md R21 to R24). -/

namespace Sys2Proof.Machine

/-! ## The units share no state -/

theorem IsTc.not_isAq {i : Instr} (h : IsTc i) : ¬ IsAq i := by
  rintro (⟨k, x, v, d, rfl⟩ | rfl | rfl) <;> exact h

theorem IsTc.not_isAi {i : Instr} (h : IsTc i) : ¬ IsAi i := by
  rintro (⟨objs, rfl⟩ | ⟨a, rfl⟩) <;> exact h

theorem IsAi.not_isAq {i : Instr} (h : IsAi i) : ¬ IsAq i := by
  obtain ⟨objs, rfl⟩ | ⟨a, rfl⟩ := h <;> rintro (⟨_, _, _, _, h⟩ | h | h) <;> cases h

/-- Settles O18: each form of a command's next state writes the state of one unit, the one the command is of. -/
theorem unitsShareNoState : Obligations.UnitsShareNoState := by
  intro i s t hexec
  cases effect_of_exec hexec with
  | answered r => exact ⟨rfl, rfl, fun _ => ⟨rfl, rfl, rfl⟩, fun _ => ⟨rfl, rfl⟩, fun _ => ⟨rfl, rfl, rfl⟩⟩
  | stored f lo bs tc =>
    exact ⟨State.setBytes_cfg .., State.setBytes_input ..,
      fun _ => ⟨State.setBytes_queue .., State.setBytes_lost .., State.setBytes_table ..⟩,
      fun aq => absurd aq tc.not_isAq, fun ai => absurd ai tc.not_isAi⟩
  | queued k index short data cmd =>
    have aq : IsAq i := .inl ⟨_, _, _, _, cmd⟩
    exact ⟨State.enqueue_cfg .., State.enqueue_input .., fun tc => absurd aq tc.not_isAq,
      fun _ => ⟨State.enqueue_frames .., State.enqueue_table ..⟩, fun ai => absurd aq ai.not_isAq⟩
  | popped e q cmd =>
    have aq : IsAq i := .inr (.inl cmd)
    exact ⟨rfl, rfl, fun tc => absurd aq tc.not_isAq, fun _ => ⟨rfl, rfl⟩, fun ai => absurd aq ai.not_isAq⟩
  | built objs cmd =>
    have ai : IsAi i := .inl ⟨objs, cmd⟩
    exact ⟨rfl, rfl, fun tc => absurd ai tc.not_isAi, fun aq => absurd aq ai.not_isAq, fun _ => ⟨rfl, rfl, rfl⟩⟩

/-! ## A run stored and answered OK -/

/-- The state after a command that stores a run of bytes and answers a bare OK. -/
def State.storeOk (s : State) (f lo : Nat) (bs : List Byte) : State :=
  { s.setBytes f lo bs with response := some (bare .ok) }

@[simp] theorem State.storeOk_cfg (s : State) (f lo : Nat) (bs : List Byte) : (s.storeOk f lo bs).cfg = s.cfg :=
  s.setBytes_cfg f lo bs

theorem State.byte_storeOk_first (s : State) (f lo : Nat) (b : Byte) (bs : List Byte) :
    (s.storeOk f lo (b :: bs)).byte f lo = b :=
  (storedRun_setBytes s f lo (b :: bs)).stored 0 (Nat.zero_lt_succ _)

theorem State.byte_storeOk_second (s : State) (f lo : Nat) (b b' : Byte) (bs : List Byte) :
    (s.storeOk f lo (b :: b' :: bs)).byte f (lo + 1) = b' :=
  (storedRun_setBytes s f lo (b :: b' :: bs)).stored 1 (Nat.succ_lt_succ (Nat.zero_lt_succ _))

section
variable {i : Instr} {s t : State} {f lo : Nat} {bs : List Byte}

theorem exists_storedRun (hrun : exec i s = .next (s.storeOk f lo bs)) :
    ∃ t, exec i s = .next t ∧ StoredRun s t f lo bs :=
  ⟨_, hrun, storedRun_setBytes s f lo bs⟩

theorem eq_storeOk_of_exec (hrun : exec i s = .next (s.storeOk f lo bs)) (ht : exec i s = .next t) :
    t = s.storeOk f lo bs :=
  Host.Outcome.next.inj (ht.symm.trans hrun)

/-- A reading command right after one that stored a run answers what it reads there. -/
theorem response_of_get_after_set {j : Instr} {u : State} {read : State → Half} {v : Half}
    (hset : exec i s = .next (s.storeOk f lo bs))
    (hget : ∀ t, t.cfg = s.cfg → exec j t = .next { t with response := some ⟨.ok, 0, read t, []⟩ })
    (hread : read (s.storeOk f lo bs) = v) (ht : exec i s = .next t) (hu : exec j t = .next u) :
    u.response = some ⟨.ok, 0, v, []⟩ := by
  obtain rfl := eq_storeOk_of_exec hset ht
  rw [hget _ (s.storeOk_cfg f lo bs), hread] at hu
  cases hu
  rfl

end

/-! ## The setters and getters on a slot that exists -/

section
variable {s : State} {f : Slot} (hf : f.toNat < s.cfg.nframes)
include hf

theorem exec_tcClear : exec (.tcClear f) s =
    .next (s.storeOk f.toNat 0 ((List.range s.cfg.frameBytes).map (defaultByte s.cfg))) := withSlot_of_lt hf

theorem exec_tcSetpri (p : BitVec 2) : exec (.tcSetpri f p) s =
    .next (s.storeOk f.toNat 0 [withPriority s.cfg (s.byte f.toNat 0) p]) := withSlot_of_lt hf

theorem exec_tcSetrep : exec (.tcSetrep f) s =
    .next (s.storeOk f.toNat 0 [withRepeated s.cfg (s.byte f.toNat 0)]) := withSlot_of_lt hf

theorem exec_tcSetsrc (a : Half) : exec (.tcSetsrc f a) s = .next (s.storeOk f.toNat 1 (halfBytes a)) :=
  withSlot_of_lt hf

theorem exec_tcSetdst (a : Half) : exec (.tcSetdst f a) s = .next (s.storeOk f.toNat 3 (halfBytes a)) :=
  withSlot_of_lt hf

theorem exec_tcSetmc (b : BitVec 1) : exec (.tcSetmc f b) s =
    .next (s.storeOk f.toNat 5 [withMulticast (s.byte f.toNat 5) b]) := withSlot_of_lt hf

theorem exec_tcSethop (h : BitVec 3) : exec (.tcSethop f h) s =
    .next (s.storeOk f.toNat 5 [withHop (s.byte f.toNat 5) h]) := withSlot_of_lt hf

theorem exec_tcSetlen {n : BitVec 4} (hn : n ≠ 0) : exec (.tcSetlen f n) s =
    .next (s.storeOk f.toNat 5 [withLength (s.byte f.toNat 5) n]) := by
  have hpos : 1 ≤ n.toNat := Nat.pos_of_ne_zero fun h => hn (BitVec.eq_of_toNat_eq h)
  exact (withSlot_of_lt hf).trans (if_pos hpos)

theorem exec_tcSetcmd (c : BitVec 4) : exec (.tcSetcmd f c) s =
    .next (s.storeOk f.toNat 6 [withCommandHigh (s.byte f.toNat 6) c, withCommandLow (s.byte f.toNat 7) c]) :=
  withSlot_of_lt hf

theorem exec_tcSetfpb (v : BitVec 6) : exec (.tcSetfpb f v) s =
    .next (s.storeOk f.toNat 7 [withFirstPayload (s.byte f.toNat 7) v]) := withSlot_of_lt hf

theorem exec_tcWrbyte {i : BitVec 5} (hi : i.toNat < s.cfg.frameBytes) (v : Byte) : exec (.tcWrbyte f i v) s =
    .next (s.storeOk f.toNat i.toNat [v]) := (withSlot_of_lt hf).trans (if_pos hi)

theorem exec_tcGetpri : exec (.tcGetpri f) s =
    .next { s with response := some ⟨.ok, 0, (priorityOf (s.byte f.toNat 0)).setWidth 16, []⟩ } := withSlot_of_lt hf

theorem exec_tcGetsrc : exec (.tcGetsrc f) s =
    .next { s with response := some ⟨.ok, 0, halfOf (s.byte f.toNat 1) (s.byte f.toNat 2), []⟩ } := withSlot_of_lt hf

theorem exec_tcGetdst : exec (.tcGetdst f) s =
    .next { s with response := some ⟨.ok, 0, halfOf (s.byte f.toNat 3) (s.byte f.toNat 4), []⟩ } := withSlot_of_lt hf

theorem exec_tcIsmc : exec (.tcIsmc f) s =
    .next { s with response := some ⟨.ok, 0, (multicastOf (s.byte f.toNat 5)).setWidth 16, []⟩ } := withSlot_of_lt hf

theorem exec_tcGethop : exec (.tcGethop f) s =
    .next { s with response := some ⟨.ok, 0, (hopOf (s.byte f.toNat 5)).setWidth 16, []⟩ } := withSlot_of_lt hf

theorem exec_tcGetlen : exec (.tcGetlen f) s =
    .next { s with response := some ⟨.ok, 0, (lengthOf (s.byte f.toNat 5)).setWidth 16, []⟩ } := withSlot_of_lt hf

theorem exec_tcGetcmd : exec (.tcGetcmd f) s =
    .next { s with response := some ⟨.ok, 0, (commandOf (s.byte f.toNat 6) (s.byte f.toNat 7)).setWidth 16, []⟩ } :=
  withSlot_of_lt hf

theorem exec_tcGetfpb : exec (.tcGetfpb f) s =
    .next { s with response := some ⟨.ok, 0, (firstPayloadOf (s.byte f.toNat 7)).setWidth 16, []⟩ } := withSlot_of_lt hf

theorem exec_tcRdbyte {i : BitVec 5} (hi : i.toNat < s.cfg.frameBytes) : exec (.tcRdbyte f i) s =
    .next { s with response := some ⟨.ok, 0, (s.byte f.toNat i.toNat).setWidth 16, []⟩ } :=
  (withSlot_of_lt hf).trans (if_pos hi)

end

/-- R113: a payload length of 0 is refused in every slot, there or not. -/
theorem exec_tcSetlen_zero (f : Slot) (s : State) :
    exec (.tcSetlen f 0) s = .next { s with response := some ⟨.errArg, 0, 0, []⟩ } := by
  obtain hf | hf := Nat.lt_or_ge f.toNat s.cfg.nframes
  · exact (withSlot_of_lt hf).trans (if_neg (by decide))
  · exact withSlot_of_ge hf

/-! ## What the setters store, with R5's values -/

section
variable {c : Config} (hwf : c.wf)
include hwf

theorem defaultFrame_of_wf : (List.range c.frameBytes).map (defaultByte c) =
    [0xBC, 0, 0, 0, 0, 0xE1, 0, 0, 0, 0, 0, 0, 0, 0, 0, 0, 0, 0, 0, 0, 0, 0, 0] := by
  have hbyte : defaultByte c = fun i => if i = 0 then 0xBC else if i = 5 then 0xE1 else 0 := by
    funext i
    rw [defaultByte, ctrlDefault_of_wf hwf, routingDefault_of_wf hwf]
  rw [frameBytes_of_wf hwf, hbyte]
  decide

theorem withPriority_of_wf (b : Byte) (p : BitVec 2) : withPriority c b p = (b &&& 0xF3) ||| (p.setWidth 8 <<< 2) := by
  rw [withPriority, ctrlPriorityMask_of_wf hwf]
  rfl

theorem withRepeated_of_wf (b : Byte) : withRepeated c b = b &&& 0xDF := by
  rw [withRepeated, ctrlRepeatMask_of_wf hwf]
  rfl

end

/-- Settles O25: with R5's values the default frame is the 23 bytes listed. -/
theorem clearStoresDefaultFrame : Obligations.ClearStoresDefaultFrame := by
  intro s f hwf
  refine ⟨rfl, fun hf => withSlot_of_ge hf, fun hf => ?_⟩
  rw [← defaultFrame_of_wf hwf]
  exact exists_storedRun (exec_tcClear hf)

/-- Settles O26, by the run each setter stores, with R5's masks in it. -/
theorem controlByteSetters : Obligations.ControlByteSetters := by
  intro s f p hwf
  refine ⟨rfl, rfl, fun hf => ⟨withSlot_of_ge hf, withSlot_of_ge hf⟩, fun hf => ?_⟩
  rw [← withPriority_of_wf hwf, ← withRepeated_of_wf hwf]
  exact ⟨exists_storedRun (exec_tcSetpri hf p), exists_storedRun (exec_tcSetrep hf)⟩

/-- Settles O27, by the run of two bytes each setter stores. -/
theorem addressSetters : Obligations.AddressSetters := fun _ _ a =>
  ⟨rfl, rfl, fun hf => ⟨withSlot_of_ge hf, withSlot_of_ge hf⟩,
    fun hf => ⟨exists_storedRun (exec_tcSetsrc hf a), exists_storedRun (exec_tcSetdst hf a)⟩⟩

/-- Settles O28, by the one byte each setter stores; its masks are no parameters. -/
theorem routingByteSetters : Obligations.RoutingByteSetters := fun _ _ b h =>
  ⟨rfl, rfl, fun hf => ⟨withSlot_of_ge hf, withSlot_of_ge hf⟩,
    fun hf => ⟨exists_storedRun (exec_tcSetmc hf b), exists_storedRun (exec_tcSethop hf h)⟩⟩

/-- Settles O29: a slot that is not there is refused by the slot check, and 0 by the check behind it. -/
theorem setlenReplacesLengthAndRefusesZero : Obligations.SetlenReplacesLengthAndRefusesZero := by
  intro s f n
  refine ⟨rfl, ?_, fun hf hn => exists_storedRun (exec_tcSetlen hf hn)⟩
  rintro (hf | rfl)
  · exact withSlot_of_ge hf
  · exact exec_tcSetlen_zero f s

/-- Settles O30, by each getter's answer on a slot that exists, and by the slot check on one that does not. -/
theorem headerGetters : Obligations.HeaderGetters := by
  intro s f b bad ok
  refine ⟨⟨rfl, rfl, rfl, rfl, rfl, rfl⟩, fun hf => ?_, fun hf => ?_⟩
  · exact ⟨withSlot_of_ge hf, withSlot_of_ge hf, withSlot_of_ge hf, withSlot_of_ge hf, withSlot_of_ge hf, withSlot_of_ge hf⟩
  · exact ⟨exec_tcGetpri hf, exec_tcGetsrc hf, exec_tcGetdst hf, exec_tcIsmc hf, exec_tcGethop hf, exec_tcGetlen hf⟩

/-! ## A field of a byte replaced -/

section
variable {n k lo len : Nat} {m : Byte}

theorem extract_and_of_ones (b : Byte) (hm : m.extractLsb' lo len = BitVec.allOnes len) :
    (b &&& m).extractLsb' lo len = b.extractLsb' lo len := by
  rw [BitVec.extractLsb'_and, hm, BitVec.and_allOnes]

/-- A field put in its place reads back. -/
theorem extract_placed (v : BitVec n) (hk : k + n ≤ 8) : ((v.setWidth 8 : Byte) <<< k).extractLsb' k n = v := by
  ext i hi
  rw [BitVec.getElem_extractLsb', BitVec.getLsbD_shiftLeft, BitVec.getLsbD_setWidth]
  simp [show k + i < 8 by omega, show i < 8 by omega, BitVec.getLsbD_eq_getElem hi]

/-- A field put in its place leaves the bits beside it zero. -/
theorem extract_placed_beside (v : BitVec n) (hbeside : lo + len ≤ k ∨ k + n ≤ lo) :
    ((v.setWidth 8 : Byte) <<< k).extractLsb' lo len = 0#len := by
  ext i hi
  rw [BitVec.getElem_extractLsb', BitVec.getLsbD_shiftLeft, BitVec.getLsbD_setWidth]
  obtain hbelow | habove := hbeside
  · simp [show lo + i < k by omega]
  · simp [BitVec.getLsbD_of_ge v (lo + i - k) (by omega)]

/-- Where the mask clears a field, the value put there is what is read. -/
theorem extract_replaced (b : Byte) (v : BitVec n) (hk : k + n ≤ 8) (hm : m.extractLsb' k n = 0#n) :
    ((b &&& m) ||| (v.setWidth 8 <<< k)).extractLsb' k n = v := by
  rw [BitVec.extractLsb'_or, BitVec.extractLsb'_and, hm, extract_placed v hk, BitVec.and_zero, BitVec.zero_or]

/-- Where the mask keeps a field, replacing another one beside it leaves it as it was. -/
theorem extract_replaced_beside (b : Byte) (v : BitVec n) (hbeside : lo + len ≤ k ∨ k + n ≤ lo)
    (hm : m.extractLsb' lo len = BitVec.allOnes len) :
    ((b &&& m) ||| (v.setWidth 8 <<< k)).extractLsb' lo len = b.extractLsb' lo len := by
  rw [BitVec.extractLsb'_or, extract_and_of_ones b hm, extract_placed_beside v hbeside, BitVec.or_zero]

end

/-! ## A getter after a setter -/

theorem priorityOf_withPriority {c : Config} (hwf : c.wf) (b : Byte) (p : BitVec 2) :
    priorityOf (withPriority c b p) = p := by
  rw [withPriority_of_wf hwf]
  exact extract_replaced b p (by decide) rfl

theorem halfOf_bytes (a : Half) : halfOf (a.extractLsb' 8 8) (a.extractLsb' 0 8) = a := half_of_bytes a

theorem multicastOf_withMulticast (b : Byte) (m : BitVec 1) : multicastOf (withMulticast b m) = m :=
  extract_replaced b m (by decide) rfl

theorem hopOf_withHop (b : Byte) (h : BitVec 3) : hopOf (withHop b h) = h :=
  extract_replaced b h (by decide) rfl

/-- LEN is the lowest field: it is put in its place without a shift. -/
theorem withLength_eq (b : Byte) (n : BitVec 4) : withLength b n = (b &&& (0xF0 : Byte)) ||| (n.setWidth 8 <<< 0) := by
  rw [withLength, BitVec.shiftLeft_zero]

theorem lengthOf_withLength (b : Byte) (n : BitVec 4) : lengthOf (withLength b n) = n := by
  rw [withLength_eq]
  exact extract_replaced b n (by decide) rfl

theorem withCommandHigh_eq (b : Byte) (c : BitVec 4) :
    withCommandHigh b c = (b &&& (0xFC : Byte)) ||| ((c.extractLsb' 2 2).setWidth 8 <<< 0) := by
  rw [withCommandHigh, BitVec.shiftLeft_zero]

/-- Each byte holds its half of the code, and the halves make the code (R23). -/
theorem commandOf_withCommand (b6 b7 : Byte) (c : BitVec 4) :
    commandOf (withCommandHigh b6 c) (withCommandLow b7 c) = c := by
  have hhigh : (withCommandHigh b6 c).extractLsb' 0 2 = c.extractLsb' 2 2 := by
    rw [withCommandHigh_eq]
    exact extract_replaced b6 _ (by decide) rfl
  have hlow : (withCommandLow b7 c).extractLsb' 6 2 = c.extractLsb' 0 2 := extract_replaced b7 _ (by decide) rfl
  rw [commandOf, hhigh, hlow]
  exact (BitVec.extractLsb'_append_extractLsb'_eq_extractLsb' rfl).trans BitVec.extractLsb'_eq_self

theorem withFirstPayload_eq (b : Byte) (v : BitVec 6) :
    withFirstPayload b v = (b &&& (0xC0 : Byte)) ||| (v.setWidth 8 <<< 0) := by
  rw [withFirstPayload, BitVec.shiftLeft_zero]

theorem firstPayloadOf_withFirstPayload (b : Byte) (v : BitVec 6) : firstPayloadOf (withFirstPayload b v) = v := by
  rw [withFirstPayload_eq]
  exact extract_replaced b v (by decide) rfl

/-- Settles O42: the getter reads the byte the setter stored, and in it the field the setter replaced. -/
theorem setThenGetAnswersOperand : Obligations.SetThenGetAnswersOperand := by
  intro s t u f hwf hf
  have hslot : ∀ {t : State}, t.cfg = s.cfg → f.toNat < t.cfg.nframes := fun hc => hc ▸ hf
  have hbytes : ∀ {t : State} {i : BitVec 5}, i.toNat ≤ 22 → t.cfg = s.cfg → i.toNat < t.cfg.frameBytes :=
    fun hi hc => by rw [hc, frameBytes_of_wf hwf]; omega
  refine ⟨fun p => ?_, fun a => ?_, fun a => ?_, fun a => ?_, fun a => ?_, fun b => ?_, fun h => ?_, fun n hn => ?_,
    fun c => ?_, fun v => ?_, fun i v hi => ?_⟩
  · exact response_of_get_after_set (exec_tcSetpri hf p) (fun t hc => exec_tcGetpri (hslot hc))
      (by rw [State.byte_storeOk_first, priorityOf_withPriority hwf])
  · exact response_of_get_after_set (exec_tcSetsrc hf a) (fun t hc => exec_tcGetsrc (hslot hc))
      (by rw [halfBytes, State.byte_storeOk_first, State.byte_storeOk_second, halfOf_bytes])
  · exact response_of_get_after_set (exec_tcSetsrc hf a) (fun t hc => exec_tcRdbyte (hslot hc) (hbytes (by decide) hc))
      (congrArg (BitVec.setWidth 16) (State.byte_storeOk_first ..))
  · exact response_of_get_after_set (exec_tcSetsrc hf a) (fun t hc => exec_tcRdbyte (hslot hc) (hbytes (by decide) hc))
      (congrArg (BitVec.setWidth 16) (State.byte_storeOk_second ..))
  · exact response_of_get_after_set (exec_tcSetdst hf a) (fun t hc => exec_tcGetdst (hslot hc))
      (by rw [halfBytes, State.byte_storeOk_first, State.byte_storeOk_second, halfOf_bytes])
  · exact response_of_get_after_set (exec_tcSetmc hf b) (fun t hc => exec_tcIsmc (hslot hc))
      (by rw [State.byte_storeOk_first, multicastOf_withMulticast])
  · exact response_of_get_after_set (exec_tcSethop hf h) (fun t hc => exec_tcGethop (hslot hc))
      (by rw [State.byte_storeOk_first, hopOf_withHop])
  · exact response_of_get_after_set (exec_tcSetlen hf hn) (fun t hc => exec_tcGetlen (hslot hc))
      (by rw [State.byte_storeOk_first, lengthOf_withLength])
  · exact response_of_get_after_set (exec_tcSetcmd hf c) (fun t hc => exec_tcGetcmd (hslot hc))
      (by rw [State.byte_storeOk_first, State.byte_storeOk_second, commandOf_withCommand])
  · exact response_of_get_after_set (exec_tcSetfpb hf v) (fun t hc => exec_tcGetfpb (hslot hc))
      (by rw [State.byte_storeOk_first, firstPayloadOf_withFirstPayload])
  · exact response_of_get_after_set (exec_tcWrbyte hf (hbytes hi rfl) v) (fun t hc => exec_tcRdbyte (hslot hc) (hbytes hi hc))
      (by rw [State.byte_storeOk_first])

/-! ## The fields beside the one a setter replaces -/

section
variable {i : Instr} {s t : State} {f lo : Nat} {b b' : Byte} {bs : List Byte}

theorem byte_eq_first_stored (hrun : exec i s = .next (s.storeOk f lo (b :: bs))) (ht : exec i s = .next t) :
    t.byte f lo = b := by
  rw [eq_storeOk_of_exec hrun ht, State.byte_storeOk_first]

theorem byte_eq_second_stored (hrun : exec i s = .next (s.storeOk f lo (b :: b' :: bs))) (ht : exec i s = .next t) :
    t.byte f (lo + 1) = b' := by
  rw [eq_storeOk_of_exec hrun ht, State.byte_storeOk_second]

end

/-- TC.SETLEN with 0 writes nothing, and with any other value a byte whose upper half is as it was (R113). -/
theorem upperHalf_after_setlen {s t : State} {f : Slot} {n : BitVec 4} (hf : f.toNat < s.cfg.nframes)
    (ht : exec (.tcSetlen f n) s = .next t) :
    (t.byte f.toNat 5).extractLsb' 4 4 = (s.byte f.toNat 5).extractLsb' 4 4 := by
  by_cases hn : n = 0
  · subst hn
    rw [exec_tcSetlen_zero] at ht
    cases ht
    rfl
  · rw [byte_eq_first_stored (exec_tcSetlen hf hn) ht, withLength_eq]
    exact extract_replaced_beside _ n (.inr le_rfl) rfl

/-- Settles O43: each setter's mask keeps the bits of its neighbours. -/
theorem settersKeepNeighbourFields : Obligations.SettersKeepNeighbourFields := by
  intro s t f hwf hf c r p q
  refine ⟨fun v ht => ?_, fun ht => ?_, fun v ht => ?_, fun v ht => ?_, fun v ht => upperHalf_after_setlen hf ht,
    fun v ht => ?_, fun v ht => ?_⟩
  · have hc : c t = (c s &&& 0xF3) ||| (v.setWidth 8 <<< 2) :=
      (byte_eq_first_stored (exec_tcSetpri hf v) ht).trans (withPriority_of_wf hwf _ v)
    rw [hc]
    exact ⟨extract_replaced_beside _ v (.inr le_rfl) rfl, extract_replaced_beside _ v (.inl le_rfl) rfl⟩
  · have hc : c t = c s &&& 0xDF := (byte_eq_first_stored (exec_tcSetrep hf) ht).trans (withRepeated_of_wf hwf _)
    rw [hc]
    exact ⟨extract_and_of_ones _ rfl, extract_and_of_ones _ rfl, by rw [BitVec.getLsbD_and]; exact Bool.and_false _⟩
  · have hr : r t = withMulticast (r s) v := byte_eq_first_stored (exec_tcSetmc hf v) ht
    rw [hr]
    exact extract_replaced_beside _ v (.inl le_rfl) rfl
  · have hr : r t = withHop (r s) v := byte_eq_first_stored (exec_tcSethop hf v) ht
    have hmc : multicastOf (withHop (r s) v) = multicastOf (r s) := extract_replaced_beside _ v (.inr le_rfl) rfl
    rw [hr]
    exact ⟨by simpa [multicastOf] using congrArg (BitVec.getLsbD · 0) hmc, extract_replaced_beside _ v (.inl le_rfl) rfl⟩
  · have hp : p t = withCommandHigh (p s) v := byte_eq_first_stored (exec_tcSetcmd hf v) ht
    have hq : q t = withCommandLow (q s) v := byte_eq_second_stored (exec_tcSetcmd hf v) ht
    rw [hp, hq, withCommandHigh_eq]
    exact ⟨extract_replaced_beside _ _ (.inr le_rfl) rfl, extract_replaced_beside _ _ (.inl le_rfl) rfl⟩
  · have hq : q t = withFirstPayload (q s) v := byte_eq_first_stored (exec_tcSetfpb hf v) ht
    rw [hq, withFirstPayload_eq]
    exact extract_replaced_beside _ v (.inr le_rfl) rfl

end Sys2Proof.Machine
end

section
/-! PROOFS. The command field, the payload and the raw bytes of a frame, and the long payload read back after it was stored
(spec/41_tc_command_payload.md R120 to R131). -/

namespace Sys2Proof.Machine

/-! ## The setters on a slot that exists -/

section
variable {s : State} {f : Slot} (hf : f.toNat < s.cfg.nframes)
include hf

theorem exec_tcClrfpb : exec (.tcClrfpb f) s =
    .next (s.storeOk f.toNat 7 [clearFirstPayload (s.byte f.toNat 7)]) := withSlot_of_lt hf

theorem exec_tcSetlp (d : List Byte) : exec (.tcSetlp f d) s =
    .next (s.storeOk f.toNat 8 (d.take (clampCount s.cfg d.length))) := withSlot_of_lt hf

theorem exec_tcClrlp : exec (.tcClrlp f) s =
    .next (s.storeOk f.toNat 8 (List.replicate s.cfg.longMax 0)) := withSlot_of_lt hf

end

/-! ## Checks, counts and fields -/

/-- A command with an operand check behind its slot check is refused where either fails (R208). -/
theorem withSlot_require_refused {c : Prop} [Decidable c] {f : Slot} {s : State}
    {run : Host.Outcome State Fault Refusal} (h : s.cfg.nframes ≤ f.toNat ∨ ¬ c) :
    withSlot f s (require c s run) = answerStatus s .errArg := by
  obtain hf | hf := Nat.lt_or_ge f.toNat s.cfg.nframes
  · exact (withSlot_of_lt hf).trans (if_neg (h.resolve_left hf.not_ge))
  · exact withSlot_of_ge hf

/-- R120, with R5's value. -/
theorem clampCount_of_wf {c : Config} (hwf : c.wf) (n : Nat) : clampCount c n = min n 14 := by
  rw [clampCount, longMax_of_wf hwf]

/-- R124: clearing the first payload value is replacing it by 0. -/
theorem withFirstPayload_zero (b : Byte) : withFirstPayload b 0 = clearFirstPayload b := BitVec.or_zero

/-- L is the low nibble of the routing byte (R22). -/
theorem State.payloadLen_eq_mod (s : State) (f : Nat) : s.payloadLen f = (s.byte f 5).toNat % 16 := by
  rw [State.payloadLen, lengthOf, BitVec.extractLsb'_toNat, Nat.shiftRight_zero]

/-- A run stored in a slot is read back whole. -/
theorem State.bytes_storeOk (s : State) (f lo : Nat) (bs : List Byte) :
    (s.storeOk f lo bs).bytes f lo bs.length = bs := by
  refine List.ext_getElem (State.length_bytes ..) fun k _ hk => ?_
  rw [State.getElem_bytes]
  exact (storedRun_setBytes s f lo bs).stored k hk

/-! ## The obligations -/

/-- Settles O31, by the run of two bytes the setter stores. -/
theorem setcmdSplitsTheCode : Obligations.SetcmdSplitsTheCode := fun _ _ c =>
  ⟨rfl, fun hf => withSlot_of_ge hf, fun hf => exists_storedRun (exec_tcSetcmd hf c)⟩

/-- Settles O32: clearing stores the byte that replacing by 0 stores. -/
theorem firstPayloadSetters : Obligations.FirstPayloadSetters := by
  intro s f v
  refine ⟨rfl, rfl, fun hf => ⟨withSlot_of_ge hf, withSlot_of_ge hf⟩,
    fun hf => ⟨exists_storedRun (exec_tcSetfpb hf v), exists_storedRun (exec_tcClrfpb hf), ?_⟩⟩
  rw [exec_tcClrfpb hf, exec_tcSetfpb hf, withFirstPayload_zero]

/-- Settles O33: the two fields are read by position, and 8 + L is small enough for the response's value. -/
theorem commandPayloadAndLengthGetters : Obligations.CommandPayloadAndLengthGetters := by
  intro s f b bad ok
  refine ⟨⟨rfl, rfl, rfl⟩, fun hf => ⟨withSlot_of_ge hf, withSlot_of_ge hf, withSlot_of_ge hf⟩,
    fun hf => ⟨exec_tcGetcmd hf, exec_tcGetfpb hf, fun hwf => ⟨_, exec_tcTlen hf, ?_⟩⟩⟩
  have hle := s.payloadLen_le f.toNat
  rw [hdrLenOffset_of_wf hwf, ← s.payloadLen_eq_mod, BitVec.toNat_ofNat]
  exact Nat.mod_eq_of_lt (by omega)

/-- Settles O34, by the run the setter stores, with R5's LONG_MAX in its count. -/
theorem setlpStoresClampedBurst : Obligations.SetlpStoresClampedBurst := by
  intro s f d hwf
  refine ⟨rfl, fun hf => withSlot_of_ge hf, fun hf => ?_⟩
  rw [← clampCount_of_wf hwf]
  exact exists_storedRun (exec_tcSetlp hf d)

/-- Settles O35, by the getter's answer, with R5's LONG_MAX in its count. -/
theorem getlpAnswersClampedRun : Obligations.GetlpAnswersClampedRun := by
  intro s f n hwf
  refine ⟨rfl, fun hf => withSlot_of_ge hf, fun hf => ?_⟩
  rw [← clampCount_of_wf hwf]
  exact exec_tcGetlp hf n

/-- Settles O36: the run of zeros is as long as R5's LONG_MAX. -/
theorem clrlpZeroesLongPayload : Obligations.ClrlpZeroesLongPayload := by
  intro s f hwf
  refine ⟨rfl, fun hf => withSlot_of_ge hf, fun hf => ?_⟩
  rw [← longMax_of_wf hwf]
  exact exists_storedRun (exec_tcClrlp hf)

/-- Settles O37: both commands check the slot, then the offset against R5's FRAME_BYTES. -/
theorem rawByteAccess : Obligations.RawByteAccess := by
  intro s f i v hwf
  have hbytes := frameBytes_of_wf hwf
  refine ⟨rfl, rfl, fun h => ?_, fun hf hi => ?_⟩
  · have hrefused : s.cfg.nframes ≤ f.toNat ∨ ¬ i.toNat < s.cfg.frameBytes := h.imp_right fun hi => by omega
    exact ⟨withSlot_require_refused hrefused, withSlot_require_refused hrefused⟩
  · have hin : i.toNat < s.cfg.frameBytes := by omega
    exact ⟨exec_tcRdbyte hf hin, exists_storedRun (exec_tcWrbyte hf hin v)⟩

/-- Settles O48: both commands clamp the count to the length of the run stored, which is read back whole. -/
theorem longPayloadRoundTrip : Obligations.LongPayloadRoundTrip := by
  intro s f d hwf hf hd
  refine ⟨_, exec_tcSetlp hf d, (exec_tcGetlp (by rwa [State.storeOk_cfg]) _).trans ?_⟩
  have hcount : (BitVec.ofNat 8 d.length).toNat = d.length := Nat.mod_eq_of_lt (Nat.lt_succ_of_le hd)
  have hrun : d.take (clampCount s.cfg d.length) = d.take 14 := by
    rw [clampCount_of_wf hwf, min_comm, ← List.take_eq_take_min]
  have hlen : clampCount s.cfg d.length = (d.take 14).length := by
    rw [clampCount_of_wf hwf, List.length_take, min_comm]
  rw [State.storeOk_cfg, hcount, hrun, hlen, State.bytes_storeOk]

end Sys2Proof.Machine
end

section
/-! PROOFS. The checksum and the verdict of a frame, what a change of one byte does to them, and the copying of slots
(spec/42_tc_checksum_validate_copy.md R140 to R151). -/

namespace Sys2Proof.Machine

/-! ## The commands on slots that exist -/

section
variable {s : State} {f g : Slot} (hf : f.toNat < s.cfg.nframes)
include hf

theorem exec_tcCalcchk : exec (.tcCalcchk f) s =
    .next { s with response := some ⟨.ok, 0, (s.chk f.toNat).setWidth 16, []⟩ } := withSlot_of_lt hf

theorem exec_tcUpdchk : exec (.tcUpdchk f) s =
    .next (s.storeOk f.toNat (7 + s.payloadLen f.toNat) [s.chk f.toNat]) := withSlot_of_lt hf

theorem exec_tcCopy (hg : g.toNat < s.cfg.nframes) : exec (.tcCopy f g) s =
    .next (s.storeOk f.toNat 0 (s.bytes g.toNat 0 s.cfg.frameBytes)) :=
  (withSlot_of_lt hf).trans (withSlot_of_lt hg)

theorem exec_tcCopyhdr (hg : g.toNat < s.cfg.nframes) : exec (.tcCopyhdr f g) s =
    .next (s.storeOk f.toNat 0 (s.bytes g.toNat 0 s.cfg.headerBytes)) :=
  (withSlot_of_lt hf).trans (withSlot_of_lt hg)

end

/-- A command of two slots is refused where either is not there (R68). -/
theorem withSlot_withSlot_refused {f g : Slot} {s : State} {run : Host.Outcome State Fault Refusal}
    (h : s.cfg.nframes ≤ f.toNat ∨ s.cfg.nframes ≤ g.toNat) :
    withSlot f s (withSlot g s run) = answerStatus s .errArg := by
  obtain hf | hf := Nat.lt_or_ge f.toNat s.cfg.nframes
  · exact (withSlot_of_lt hf).trans (withSlot_of_ge (h.resolve_left hf.not_ge))
  · exact withSlot_of_ge hf

/-! ## Runs of bytes -/

/-- A run from offset 0 on, as the bytes at its offsets. -/
theorem State.bytes_zero (s : State) (f n : Nat) : s.bytes f 0 n = (List.range n).map fun i => s.byte f i := by
  simp only [State.bytes, Nat.zero_add]

theorem State.bytes_eq_of_byte_eq {s t : State} {f g i n : Nat} (h : ∀ k < n, s.byte f (i + k) = t.byte g (i + k)) :
    s.bytes f i n = t.bytes g i n :=
  List.map_congr_left fun k hk => h k (List.mem_range.mp hk)

/-- Storing a run where it already stands changes no byte. -/
theorem State.read_setBytes_bytes (s : State) (f lo n a : Nat) :
    (s.setBytes f lo (s.bytes f lo n)).read a = s.read a := by
  rw [State.read_setBytes]
  by_cases h : frameAddr s.cfg f lo ≤ a ∧ a < frameAddr s.cfg f lo + (s.bytes f lo n).length
  · have haddr : frameAddr s.cfg f (lo + (a - frameAddr s.cfg f lo)) = a := by
      simp only [frameAddr] at *
      omega
    rw [dif_pos h, State.getElem_bytes, State.byte, haddr]
  · rw [dif_neg h]

/-! ## The checksum -/

theorem State.xorUpTo_eq_foldl (s : State) (f n : Nat) :
    s.xorUpTo f n = (List.range n).foldl (fun x k => x ^^^ s.byte f k) 0 := by
  induction n with
  | zero => rfl
  | succ n ih => rw [List.range_succ, List.foldl_append, ← ih]; rfl

/-- R140 with the exclusive-or and L written out. -/
theorem State.chk_eq_foldl (s : State) (f : Nat) :
    s.chk f = ~~~ ((List.range (7 + (s.byte f 5).toNat % 16)).foldl (fun x k => x ^^^ s.byte f k) 0) := by
  rw [State.chk, State.xorUpTo_eq_foldl, State.payloadLen_eq_mod]

/-- Check 5 of R143: the checksum byte of the frame is right. -/
abbrev State.ChecksumRight (s : State) (f : Nat) : Prop := s.byte f (7 + s.payloadLen f) = s.chk f

theorem xor_eq_allOnes_iff {w : Nat} {x y : BitVec w} : x ^^^ y = BitVec.allOnes w ↔ y = ~~~x := by
  rw [← BitVec.not_inj, BitVec.not_allOnes, BitVec.not_xor_left, BitVec.xor_eq_zero_iff, eq_comm]

/-- R151 (a): the checksum byte complements the exclusive-or before it, so that the two together make 0xFF. -/
theorem State.checksumRight_iff (s : State) (f : Nat) :
    s.ChecksumRight f ↔ s.xorUpTo f (8 + s.payloadLen f) = 0xFF := by
  have hlast : s.xorUpTo f (8 + s.payloadLen f) = s.xorUpTo f (7 + s.payloadLen f) ^^^ s.byte f (7 + s.payloadLen f) := by
    rw [Nat.succ_add 7]
    rfl
  rw [hlast]
  exact xor_eq_allOnes_iff.symm

/-! ## What the checksum and the verdict are computed from -/

section
variable {s t : State} {f g : Nat}

theorem State.payloadLen_eq_of_byte (h : s.byte f 5 = t.byte g 5) : s.payloadLen f = t.payloadLen g := by
  rw [State.payloadLen, State.payloadLen, h]

theorem State.chk_eq_of_bytes (h : ∀ k < 7 + s.payloadLen f, s.byte f k = t.byte g k) : s.chk f = t.chk g := by
  rw [State.chk, State.chk, State.xorUpTo_congr _ h, State.payloadLen_eq_of_byte (h 5 (by omega))]

theorem State.verdict_eq_of_bytes (hc : s.cfg = t.cfg) (h : ∀ k < 8 + s.payloadLen f, s.byte f k = t.byte g k) :
    s.verdict f = t.verdict g := by
  have hchk : s.chk f = t.chk g := State.chk_eq_of_bytes fun k hk => h k (by omega)
  have hlast := h (7 + s.payloadLen f) (by omega)
  rw [State.verdict, State.verdict, hc, h 0 (by omega), h 6 (by omega), h 7 (by omega), hlast, hchk,
    State.payloadLen_eq_of_byte (h 5 (by omega))]

end

/-! ## One byte written -/

section
variable {s : State} {f i n : Nat} {b : Byte}

theorem State.payloadLen_setByte (hi : i ≠ 5) : (s.setByte f i b).payloadLen f = s.payloadLen f :=
  State.payloadLen_eq_of_byte (by rw [State.byte_setByte_same_slot, if_neg hi.symm])

theorem State.payloadLen_setByte_routing (hb : lengthOf b = lengthOf (s.byte f 5)) :
    (s.setByte f 5 b).payloadLen f = s.payloadLen f := by
  rw [State.payloadLen, State.payloadLen, State.byte_setByte_same_slot, if_pos rfl, hb]

theorem State.xorUpTo_setByte_of_le (hi : n ≤ i) : (s.setByte f i b).xorUpTo f n = s.xorUpTo f n :=
  State.xorUpTo_congr n fun k hk => by rw [State.byte_setByte_same_slot, if_neg (by omega)]

/-- A byte replaced inside the sum takes its old value out and puts its new one in. -/
theorem State.xorUpTo_setByte_of_lt (hi : i < n) :
    (s.setByte f i b).xorUpTo f n = s.xorUpTo f n ^^^ (s.byte f i ^^^ b) := by
  induction n with
  | zero => omega
  | succ n ih =>
    rw [State.xorUpTo, State.xorUpTo, State.byte_setByte_same_slot]
    obtain rfl | hlt := Nat.eq_or_lt_of_le (Nat.le_of_lt_succ hi)
    · rw [if_pos rfl, State.xorUpTo_setByte_of_le le_rfl, BitVec.xor_assoc, ← BitVec.xor_assoc (s.byte f i),
        BitVec.xor_self, BitVec.zero_xor]
    · rw [if_neg hlt.ne', ih hlt]
      ac_rfl

end

/-- A single-bit error is no zero byte. -/
theorem bit_ne_zero : ∀ j < 8, 1#8 <<< j ≠ 0 := by decide

/-- Flipping a bit of the routing byte above L's four leaves L. -/
theorem lengthOf_xor_bit {b : Byte} {j : Nat} (hj : j < 8) (hj4 : ¬ j < 4) : lengthOf (b ^^^ (1#8 <<< j)) = lengthOf b := by
  have hbit : ∀ j < 8, ¬ j < 4 → (1#8 <<< j).extractLsb' 0 4 = 0#4 := by decide
  rw [lengthOf, BitVec.extractLsb'_xor, hbit j hj hj4, BitVec.xor_zero, lengthOf]

/-! ## The verdict -/

theorem controlOk_iff {c : Config} {b : Byte} : controlOk c b = true ↔ b &&& c.ctrlPatternMask = c.ctrlPatternValue :=
  beq_iff_eq

theorem formatOk_iff {c : Config} {b : Byte} : formatOk c b = true ↔ b &&& c.ctrlFormatMask = c.ctrlFormatStandard :=
  beq_iff_eq

theorem commandFieldOk_iff {c : Config} {b : Byte} :
    commandFieldOk c b = true ↔ b &&& c.cmdPatternMask = c.cmdPatternValue :=
  beq_iff_eq

/-- R145 (6): the recognised codes, as a list. -/
theorem recognised_iff {c : BitVec 4} : recognised c = true ↔ c ∈ [0, 1, 2, 10] := by
  revert c
  decide

/-- TC.VALIDATE answers 5 for the verdict of check 5 alone. -/
theorem verdictCode_eq_five {v : Verdict} : verdictCode v = 5 ↔ v = .badChecksum := by
  cases v <;> decide

/-- Only check 5 gives its verdict (R143), so where it passes no branch of the chain is left to give it. -/
theorem State.verdict_ne_badChecksum {s : State} {f : Nat} (hright : s.ChecksumRight f) : s.verdict f ≠ .badChecksum := by
  intro h
  rw [State.verdict, if_neg (not_not.mpr hright)] at h
  split_ifs at h

/-! ## After TC.UPDCHK and after TC.COPY -/

section
variable {s t : State} {f g : Slot} (hf : f.toNat < s.cfg.nframes)
include hf

/-- R142: L is what it was, and the checksum byte is right. -/
theorem checksumRight_after_updchk (ht : exec (.tcUpdchk f) s = .next t) :
    t.payloadLen f.toNat = s.payloadLen f.toNat ∧ t.ChecksumRight f.toNat := by
  have hbyte : ∀ k, t.byte f.toNat k = if k = 7 + s.payloadLen f.toNat then s.chk f.toNat else s.byte f.toNat k := by
    rw [eq_storeOk_of_exec (exec_tcUpdchk hf) ht]
    exact fun k => s.byte_setByte_same_slot f.toNat _ k _
  have hkept : ∀ k ≠ 7 + s.payloadLen f.toNat, s.byte f.toNat k = t.byte f.toNat k :=
    fun k hk => by rw [hbyte, if_neg hk]
  have hlen := State.payloadLen_eq_of_byte (hkept 5 (by omega))
  have hchk := State.chk_eq_of_bytes fun k hk => hkept k (Nat.ne_of_lt hk)
  refine ⟨hlen.symm, ?_⟩
  rw [State.ChecksumRight, ← hlen, ← hchk, hbyte, if_pos rfl]

/-- R147: the destination's bytes are the source's, which stand as they were. -/
theorem byte_eq_after_copy (hg : g.toNat < s.cfg.nframes) (ht : exec (.tcCopy f g) s = .next t) {i : Nat}
    (hi : i < s.cfg.frameBytes) : t.byte f.toNat i = t.byte g.toNat i := by
  by_cases hfg : g.toNat = f.toNat
  · rw [hfg]
  have hrun : (s.bytes g.toNat 0 s.cfg.frameBytes).length = s.cfg.frameBytes := State.length_bytes ..
  have hstored := (storedRun_setBytes s f.toNat 0 (s.bytes g.toNat 0 s.cfg.frameBytes)).stored i (by omega)
  rw [State.getElem_bytes, Nat.zero_add] at hstored
  rw [eq_storeOk_of_exec (exec_tcCopy hf hg) ht]
  exact hstored.trans (s.byte_setBytes_other_slot _ hfg (by omega) hi).symm

end

/-! ## The obligations -/

/-- Settles O38: the model's checksum is the exclusive-or written out, and TC.UPDCHK stores a run of that one byte. -/
theorem checksumComputedAndStored : Obligations.ChecksumComputedAndStored := by
  intro s f L chk
  refine ⟨rfl, rfl, fun hf => ⟨withSlot_of_ge hf, withSlot_of_ge hf⟩, fun hf => ?_⟩
  have hchk : chk = s.chk f.toNat := (s.chk_eq_foldl f.toNat).symm
  have hL : L = s.payloadLen f.toNat := (s.payloadLen_eq_mod f.toNat).symm
  rw [hchk, hL]
  exact ⟨exec_tcCalcchk hf, exists_storedRun (exec_tcUpdchk hf)⟩

/-- Settles O39: the model's chain of checks is R143's, check by check. -/
theorem validateAnswersFirstFailingCheck : Obligations.ValidateAnswersFirstFailingCheck := by
  intro s f b L chk code verdict c
  have hverdict : verdictCode (s.verdict f.toNat) = verdict c.ctrlPatternMask c.ctrlPatternValue c.ctrlFormatMask
      c.ctrlFormatStandard c.cmdPatternMask c.cmdPatternValue := by
    simp only [State.verdict, apply_ite verdictCode, controlOk_iff, formatOk_iff, commandFieldOk_iff, recognised_iff,
      s.chk_eq_foldl, s.payloadLen_eq_mod]
    rfl
  have hok : f.toNat < c.nframes → exec (.tcValidate f) s = .next { s with response := some ⟨.ok, 0,
      verdict c.ctrlPatternMask c.ctrlPatternValue c.ctrlFormatMask c.ctrlFormatStandard c.cmdPatternMask
        c.cmdPatternValue, []⟩ } := fun hf => hverdict ▸ exec_tcValidate hf
  refine ⟨rfl, fun hf => withSlot_of_ge hf, hok, fun hf hpm hpv hfm hfv hcm hcv => ?_⟩
  rw [hok hf, hpm, hpv, hfm, hfv, hcm, hcv]

/-- Settles O40: the run stored is the source slot's; where the source is the destination it stands there already. -/
theorem copyCopiesWholeSlot : Obligations.CopyCopiesWholeSlot := by
  intro s f g hwf
  refine ⟨rfl, fun h => withSlot_withSlot_refused h, fun hf hg => ?_⟩
  rw [← State.bytes_zero, ← frameBytes_of_wf hwf]
  refine ⟨_, exec_tcCopy hf hg, storedRun_setBytes .., ?_⟩
  rintro rfl
  exact s.read_setBytes_bytes f.toNat 0 s.cfg.frameBytes

/-- Settles O41, by the run of R5's HEADER_BYTES bytes stored. -/
theorem copyhdrCopiesSixBytes : Obligations.CopyhdrCopiesSixBytes := by
  intro s f g hwf
  refine ⟨rfl, fun h => withSlot_withSlot_refused h, fun hf hg => ?_⟩
  rw [← State.bytes_zero, ← headerBytes_of_wf hwf]
  exact exists_storedRun (exec_tcCopyhdr hf hg)

/-- Settles O44: TC.UPDCHK leaves the checksum byte right, and storing a right one again changes nothing. -/
theorem updchkMakesFrameConsistent : Obligations.UpdchkMakesFrameConsistent := by
  intro s t f hf ht L
  obtain ⟨hlen, hright⟩ := checksumRight_after_updchk hf ht
  have hL : L = t.payloadLen f.toNat := (s.payloadLen_eq_mod f.toNat).symm.trans hlen.symm
  have hslot : f.toNat < t.cfg.nframes := by
    rwa [eq_storeOk_of_exec (exec_tcUpdchk hf) ht, State.storeOk_cfg]
  refine ⟨?_, ⟨_, fun hcode => ?_, exec_tcValidate hslot⟩, _, exec_tcUpdchk hslot, fun a => ?_⟩
  · rw [← State.xorUpTo_eq_foldl, hL]
    exact (t.checksumRight_iff f.toNat).mp hright
  · exact State.verdict_ne_badChecksum hright (verdictCode_eq_five.mp hcode)
  · rw [← hright]
    exact t.read_setBytes_bytes f.toNat _ 1 a

/-- Settles O45: the flipped bit shows in the exclusive-or of the whole frame, which is no longer 0xFF. -/
theorem singleBitErrorIsDetected : Obligations.SingleBitErrorIsDetected := by
  intro s f i j hright hi hj hkeep t
  have hlen : t.payloadLen f = s.payloadLen f := by
    by_cases h5 : i = 5
    · subst h5
      exact State.payloadLen_setByte_routing (lengthOf_xor_bit hj fun h4 => hkeep ⟨rfl, h4⟩)
    · exact State.payloadLen_setByte h5
  refine ⟨hlen, fun hright' => bit_ne_zero j hj ?_⟩
  have hbefore := (s.checksumRight_iff f).mp hright
  have hafter := (t.checksumRight_iff f).mp hright'
  rw [hlen, State.xorUpTo_setByte_of_lt (by omega), hbefore, ← BitVec.xor_assoc (s.byte f i), BitVec.xor_self,
    BitVec.zero_xor] at hafter
  exact (BitVec.xor_right_inj 0xFF).mp hafter

/-- Settles O46: a swap of covered bytes takes both out of the exclusive-or and puts both in again, and a byte beyond those a
result is computed from does not show in it. -/
theorem checksumAndVerdictIgnore : Obligations.ChecksumAndVerdictIgnore := by
  intro s f i j v
  refine ⟨fun hi hj hi5 hj5 => ?_, fun hi => ?_, fun hi => Eq.symm (State.verdict_eq_of_bytes rfl fun k hk => ?_)⟩
  · have hlen : ((s.setByte f i (s.byte f j)).setByte f j (s.byte f i)).payloadLen f = s.payloadLen f := by
      rw [State.payloadLen_setByte hj5, State.payloadLen_setByte hi5]
    have hj' : (s.setByte f i (s.byte f j)).byte f j = s.byte f j := by
      rw [State.byte_setByte_same_slot, ite_self]
    rw [State.chk, State.chk, hlen, State.xorUpTo_setByte_of_lt hj, State.xorUpTo_setByte_of_lt hi, hj',
      BitVec.xor_assoc, BitVec.xor_comm (s.byte f j), BitVec.xor_self, BitVec.xor_zero]
  · rw [State.chk, State.chk, State.payloadLen_setByte (by omega), State.xorUpTo_setByte_of_le hi]
  · rw [State.byte_setByte_same_slot, if_neg (by omega)]

/-- Settles O49: a command that reads a slot computes its answer from the slot's 23 bytes, which are equal. -/
theorem copiedSlotsAnswerAlike : Obligations.CopiedSlotsAnswerAlike := by
  intro s t f g hwf hf hg ht
  have hbyte : ∀ i < 23, t.byte f.toNat i = t.byte g.toNat i := fun i hi =>
    byte_eq_after_copy hf hg ht (by rwa [frameBytes_of_wf hwf])
  have hcfg : t.cfg = s.cfg := by rw [eq_storeOk_of_exec (exec_tcCopy hf hg) ht, State.storeOk_cfg]
  rw [← hcfg] at hwf hf hg
  have hle := t.payloadLen_le f.toNat
  have hlen : t.payloadLen f.toNat = t.payloadLen g.toNat := State.payloadLen_eq_of_byte (hbyte 5 (by decide))
  have hchk : t.chk f.toNat = t.chk g.toNat := State.chk_eq_of_bytes fun k hk => hbyte k (by omega)
  have hverdict : t.verdict f.toNat = t.verdict g.toNat := State.verdict_eq_of_bytes rfl fun k hk => hbyte k (by omega)
  have hlp : ∀ n, t.bytes f.toNat 8 (clampCount t.cfg n) = t.bytes g.toNat 8 (clampCount t.cfg n) := fun n =>
    State.bytes_eq_of_byte_eq fun k hk => hbyte _ (by rw [clampCount_of_wf hwf] at hk; omega)
  refine ⟨hbyte, ?_, ?_, ?_, ?_, ?_, ?_, ?_, ?_, fun n => ?_, ?_, fun i => ?_, ?_, ?_⟩
  · rw [exec_tcGetpri hf, exec_tcGetpri hg, hbyte 0 (by decide)]
  · rw [exec_tcGetsrc hf, exec_tcGetsrc hg, hbyte 1 (by decide), hbyte 2 (by decide)]
  · rw [exec_tcGetdst hf, exec_tcGetdst hg, hbyte 3 (by decide), hbyte 4 (by decide)]
  · rw [exec_tcIsmc hf, exec_tcIsmc hg, hbyte 5 (by decide)]
  · rw [exec_tcGethop hf, exec_tcGethop hg, hbyte 5 (by decide)]
  · rw [exec_tcGetlen hf, exec_tcGetlen hg, hbyte 5 (by decide)]
  · rw [exec_tcGetcmd hf, exec_tcGetcmd hg, hbyte 6 (by decide), hbyte 7 (by decide)]
  · rw [exec_tcGetfpb hf, exec_tcGetfpb hg, hbyte 7 (by decide)]
  · rw [exec_tcGetlp hf, exec_tcGetlp hg, hlp]
  · rw [exec_tcTlen hf, exec_tcTlen hg, hlen]
  · by_cases hi : i.toNat < t.cfg.frameBytes
    · rw [exec_tcRdbyte hf hi, exec_tcRdbyte hg hi, hbyte _ (frameBytes_of_wf hwf ▸ hi)]
    · exact (withSlot_require_refused (.inr hi)).trans (withSlot_require_refused (.inr hi)).symm
  · rw [exec_tcCalcchk hf, exec_tcCalcchk hg, hchk]
  · rw [exec_tcValidate hf, exec_tcValidate hg, hverdict]

end Sys2Proof.Machine
end

section
/-! PROOFS. The action queue's commands as exact next states, and the queue after a run of appends
(spec/43_action_queue.md R161 to R166). -/

namespace Sys2Proof.Machine

/-! ## One command -/

@[simp] theorem kindOfCode_kindCode (k : Kind) : kindOfCode (kindCode k) = some k := by
  cases k <;> rfl

/-- R161: what an append does to the state, written as one update. -/
theorem State.enqueue_eq (s : State) (e : Entry) : s.enqueue e = { s with
    queue := (if s.queue.length = s.cfg.aqCapacity then s.queue.tail else s.queue) ++ [e]
    lost := if s.queue.length = s.cfg.aqCapacity then bumpLost s.cfg s.lost else s.lost } := by
  unfold State.enqueue
  split <;> rfl

/-- An append of a code that names no kind, or of more bytes than an entry holds, is refused (R161). -/
theorem exec_aqAppend_refused {s : State} {kind : BitVec 2} (index short : Byte) {data : List Byte}
    (h : kindOfCode kind = none ∨ ¬ data.length ≤ s.cfg.longMax) :
    exec (.aqAppend kind index short data) s = .next { s with response := some (bare .errArg) } := by
  cases hk : kindOfCode kind with
  | none => simp only [exec, execAqAppend, hk]; rfl
  | some k =>
    have hdata : ¬ data.length ≤ s.cfg.longMax := h.resolve_left (by simp [hk])
    simp only [exec, execAqAppend, hk]
    exact if_neg hdata

/-- R163: a pop of the empty queue answers EMPTY. -/
theorem exec_aqPop_nil {s : State} (hq : s.queue = []) :
    exec .aqPop s = .next { s with response := some (bare .empty) } := by
  simp only [exec, execAqPop, hq, answerStatus, answer]

/-- Settles O51: legal operands name a kind and fit an entry, so the command is the model's enqueue; the others are refused. -/
theorem appendEvictsOldestWhenFull : Obligations.AppendEvictsOldestWhenFull := by
  intro s kind index short data hwf
  have hmax := longMax_of_wf hwf
  refine ⟨rfl, fun hbad => exec_aqAppend_refused index short ?_, ?_⟩
  · obtain rfl | hlong := hbad
    · exact .inl rfl
    · exact .inr (by omega)
  · rintro k rfl hdata
    rw [exec_aqAppend index short (kindOfCode_kindCode k) (hmax ▸ hdata), State.enqueue_eq, bumpLost_of_wf hwf]
    rfl

/-- Settles O52, by whether the queue holds an entry; AQ.LOST is a read. -/
theorem popAnswersOldestAndLostIsRead : Obligations.PopAnswersOldestAndLostIsRead :=
  ⟨rfl, rfl, fun _ hq => exec_aqPop_nil hq, fun _ _ _ hq => exec_aqPop hq, fun _ => rfl⟩

/-! ## A run of appends -/

/-- R164: the queue holds the last entries of those ever appended, as many as fit, and the counter counts the others. -/
structure State.HoldsLast (s : State) (past : List Entry) : Prop where
  queue : s.queue = past.drop (past.length - s.cfg.aqCapacity)
  lost : s.lost.toNat = min (past.length - s.cfg.aqCapacity) 0xFFFF

theorem State.holdsLast_init (c : Config) : (State.init c).HoldsLast [] where
  queue := List.drop_nil.symm
  lost := by simp

/-- A count that stops at m may be cut off before it is raised. -/
theorem min_succ_saturated (n m : Nat) : min (min n m + 1) m = min (n + 1) m := by
  omega

section
variable {s : State} {past : List Entry} (h : s.HoldsLast past)
include h

/-- The queue is full as soon as as many entries were appended as it can hold. -/
theorem State.HoldsLast.full_iff : s.queue.length = s.cfg.aqCapacity ↔ s.cfg.aqCapacity ≤ past.length := by
  rw [h.queue, List.length_drop]
  omega

/-- An append extends the past: a full queue of capacity at least 1 gives up the one entry that is now too old. -/
theorem State.HoldsLast.enqueue (hwf : s.cfg.wf) (e : Entry) : (s.enqueue e).HoldsLast (past ++ [e]) := by
  have ⟨_, _, hcapacity, _⟩ := hwf
  by_cases hfull : s.cfg.aqCapacity ≤ past.length
  · have hdrop : (past ++ [e]).length - s.cfg.aqCapacity = past.length - s.cfg.aqCapacity + 1 := by
      rw [List.length_append, List.length_singleton]
      omega
    constructor
    · rw [State.enqueue_cfg, hdrop, State.enqueue_queue, if_pos (h.full_iff.mpr hfull), h.queue, List.tail_drop,
        List.drop_append_of_le_length (by omega)]
    · rw [State.enqueue_cfg, hdrop, State.enqueue_lost, if_pos (h.full_iff.mpr hfull), toNat_bumpLost hwf, h.lost,
        min_succ_saturated]
  · have hold : past.length - s.cfg.aqCapacity = 0 := by omega
    have hnew : (past ++ [e]).length - s.cfg.aqCapacity = 0 := by
      rw [List.length_append, List.length_singleton]
      omega
    constructor
    · rw [State.enqueue_cfg, hnew, State.enqueue_queue, if_neg (mt h.full_iff.mp hfull), h.queue, hold]
      rfl
    · rw [State.enqueue_cfg, hnew, State.enqueue_lost, if_neg (mt h.full_iff.mp hfull), h.lost, hold]

theorem State.HoldsLast.respond (r : Response) : { s with response := some r }.HoldsLast past := ⟨h.queue, h.lost⟩

end

/-- The commands that append the listed entries, in order. -/
abbrev appendsOf (es : List Entry) : List Instr := es.map fun e => .aqAppend (kindCode e.kind) e.index e.short e.data

/-- R164: accepted appends extend the past by their entries. -/
theorem execAll_appendsOf {es past : List Entry} {s : State} (hwf : s.cfg.wf) (hes : ∀ e ∈ es, e.data.length ≤ 14)
    (h : s.HoldsLast past) :
    ∃ t, execAll (appendsOf es) s = .next t ∧ t.cfg = s.cfg ∧ t.HoldsLast (past ++ es) := by
  induction es generalizing s past with
  | nil => exact ⟨s, rfl, rfl, by rwa [List.append_nil]⟩
  | cons e es ih =>
    obtain ⟨he, hes⟩ := List.forall_mem_cons.mp hes
    have hexec := exec_aqAppend e.index e.short (kindOfCode_kindCode e.kind) ((longMax_of_wf hwf).symm ▸ he)
    have hcfg : (s.enqueue e).cfg = s.cfg := State.enqueue_cfg ..
    obtain ⟨t, hrun, htcfg, hlast⟩ := ih (s := { s.enqueue e with response := some (bare .ok) }) (hcfg.symm ▸ hwf) hes
      ((h.enqueue hwf e).respond _)
    refine ⟨t, ?_, htcfg.trans hcfg, List.append_cons past e es ▸ hlast⟩
    rw [appendsOf, List.map_cons, execAll, hexec]
    exact hrun

/-- Settles O53: the empty queue after reset holds the last of no entries, and every accepted append keeps it so. -/
theorem lastAppendsSurvive : Obligations.LastAppendsSurvive := by
  intro c es hwf hes
  obtain ⟨t, hrun, hcfg, hlast⟩ := execAll_appendsOf hwf hes (State.holdsLast_init c)
  obtain rfl : t.cfg = c := hcfg
  exact ⟨t, hrun, hlast.queue, hlast.lost⟩

end Sys2Proof.Machine
end

section
/-! PROOFS. The address index: what a lookup answers, what a build makes of a list of objects, and one after the other
(spec/44_address_index.md R181 to R186). -/

namespace Sys2Proof.Machine

/-! ## A lookup -/

/-- R184: the response to what the table holds of an address. -/
def lookupResponse : Option Byte → Response
  | some i => ⟨.ok, 0, i.setWidth 16, []⟩
  | none => bare .notFound

/-- Found and not found differ in the status, two indices in the value (R184 (d)). -/
theorem lookupResponse_injective : Function.Injective lookupResponse
  | none, none, _ => rfl
  | none, some _, h => nomatch (congrArg Response.status h : Status.notFound = .ok)
  | some _, none, h => nomatch (congrArg Response.status h : Status.ok = .notFound)
  | some i, some j, h => by
    have hvalue : i.setWidth 16 = j.setWidth 16 := congrArg Response.value h
    congr 1
    bv_omega

theorem exec_aiLookup (a : Half) (s : State) :
    exec (.aiLookup a) s = .next { s with response := some (lookupResponse (Table.lookup s.table a)) } := by
  simp only [exec, execAiLookup]
  cases Table.lookup s.table a with
  | some i => rfl
  | none => rfl

/-- The response tells what the table holds of the address. -/
theorem exec_aiLookup_eq_iff {a : Half} {s : State} {x : Option Byte} :
    exec (.aiLookup a) s = .next { s with response := some (lookupResponse x) } ↔ Table.lookup s.table a = x := by
  rw [exec_aiLookup]
  refine ⟨fun h => ?_, fun h => by rw [h]⟩
  injection h with hstate
  exact lookupResponse_injective (Option.some.inj (congrArg State.response hstate))

/-- Settles O56: in an ascending table the pair that carries the address is what the search finds, and without one it finds
nothing. -/
theorem lookupIsExactMatch : Obligations.LookupIsExactMatch := by
  intro s a
  refine ⟨rfl, fun hsorted => ⟨fun i hi => ?_, fun habsent => ?_⟩⟩
  · exact exec_aiLookup_eq_iff.mpr ((Table.lookup_eq_some _ _ _ hsorted).mpr hi)
  · exact exec_aiLookup_eq_iff.mpr (Table.lookup_of_forall_ne _ _ habsent)

/-! ## A build -/

/-- A flagged object of this address (R181, R183). -/
def flaggedAt (a : Half) (d : Descriptor) : Bool := descriptorComm d && decide (d.addr = a)

/-- R183: the least flagged index of an address is where a search from index 0 on first succeeds. -/
theorem leastFlagged_iff_findIdx? {objs : List Descriptor} {a : Half} {i : Nat} :
    LeastFlagged objs a i ↔ objs.findIdx? (flaggedAt a) = some i := by
  simp only [List.findIdx?_eq_some_iff_getElem, LeastFlagged, flaggedAt, descriptorComm, Bool.and_eq_true,
    decide_eq_true_eq]
  constructor
  · rintro ⟨⟨hlt, hi⟩, hleast⟩
    refine ⟨hlt, hi, fun j hj ⟨hflag, haddr⟩ => ?_⟩
    exact absurd (hleast j (hj.trans hlt) hflag haddr) (not_le.mpr hj)
  · rintro ⟨hlt, hi, hbefore⟩
    refine ⟨⟨hlt, hi⟩, fun j _ hflag haddr => not_lt.mp fun hj => ?_⟩
    exact hbefore j hj ⟨hflag, haddr⟩

/-- What a build finds of an address: the pair the table had already, or else the first flagged object of it. -/
theorem Table.lookup_buildFrom (t : List Pair) (i : Nat) (objs : List Descriptor) (a : Half)
    (h : t.Pairwise fun p q => p.addr < q.addr) :
    Table.lookup (Table.buildFrom t i objs) a = (Table.lookup t a).or
      ((objs.findIdx? (flaggedAt a)).map fun k => BitVec.ofNat 8 (i + k)) := by
  induction objs generalizing t i with
  | nil => simp [Table.buildFrom]
  | cons d ds ih =>
    have hshift : (fun k => BitVec.ofNat 8 (i + 1 + k)) = (fun k => BitVec.ofNat 8 (i + k)) ∘ (· + 1) :=
      funext fun k => congrArg (BitVec.ofNat 8) (Nat.add_right_comm i 1 k)
    by_cases hflag : descriptorComm d
    · rw [Table.buildFrom, if_pos hflag, ih _ _ (Table.insertNew_sorted _ _ h), Table.lookup_insertNew _ _ _ h, hshift]
      obtain rfl | haddr := eq_or_ne a d.addr
      · have hfirst : flaggedAt d.addr d = true := by simp [flaggedAt, hflag]
        cases Table.lookup t d.addr with
        | none => simp [List.findIdx?_cons, hfirst]
        | some x => simp
      · have hother : flaggedAt a d = false := by simp [flaggedAt, haddr.symm]
        simp [List.findIdx?_cons, hother, haddr]
    · rw [Table.buildFrom, if_neg hflag, ih _ _ h, hshift]
      have hother : flaggedAt a d = false := by simp [flaggedAt, hflag]
      simp [List.findIdx?_cons, hother]

theorem Table.lookup_build (objs : List Descriptor) (a : Half) :
    Table.lookup (Table.build objs) a = (objs.findIdx? (flaggedAt a)).map (BitVec.ofNat 8) := by
  rw [Table.build, Table.lookup_buildFrom _ _ _ _ .nil]
  simp [Table.lookup]

theorem LeastFlagged.lt_length {objs : List Descriptor} {a : Half} {i : Nat} (h : LeastFlagged objs a i) :
    i < objs.length := by
  obtain ⟨⟨hlt, -⟩, -⟩ := h
  exact hlt

/-- A list that fits the burst has no index that 8 bits would cut (R29, D25). -/
theorem Table.lookup_build_eq_some_iff {objs : List Descriptor} (hobjs : objs.length ≤ 255) {a : Half} {i : Byte} :
    Table.lookup (Table.build objs) a = some i ↔ LeastFlagged objs a i.toNat := by
  rw [Table.lookup_build, Option.map_eq_some_iff]
  constructor
  · rintro ⟨k, hk, rfl⟩
    have hleast := leastFlagged_iff_findIdx?.mpr hk
    have hlt := hleast.lt_length
    rwa [BitVec.toNat_ofNat, Nat.mod_eq_of_lt (by omega)]
  · intro hleast
    exact ⟨i.toNat, leastFlagged_iff_findIdx?.mp hleast, BitVec.ofNat_toNat 8 i⟩

theorem Table.lookup_build_eq_none_iff {objs : List Descriptor} {a : Half} :
    Table.lookup (Table.build objs) a = none ↔ ∀ i, ¬ LeastFlagged objs a i := by
  rw [Table.lookup_build, Option.map_eq_none_iff, Option.eq_none_iff_forall_ne_some]
  exact forall_congr' fun i => not_congr leastFlagged_iff_findIdx?.symm

/-- R182: the state after a build, its answer included. -/
def State.built (s : State) (objs : List Descriptor) : State :=
  { s with table := Table.build objs, response := some (bare .ok) }

theorem exec_aiBuild (objs : List Descriptor) (s : State) : exec (.aiBuild objs) s = .next (s.built objs) := rfl

/-- Settles O55: the built table is ascending, so its pairs are what lookups find: the least flagged indices. -/
theorem buildMakesLeastIndexTable : Obligations.BuildMakesLeastIndexTable := by
  intro s objs
  have hsorted := Table.buildFrom_sorted [] 0 objs .nil
  refine ⟨rfl, fun hobjs => ⟨Table.build objs, exec_aiBuild objs s, hsorted, ?_, fun a i => ?_⟩⟩
  · exact (Table.length_buildFrom [] 0 objs).trans_eq (Nat.zero_add _)
  · exact (Table.lookup_eq_some _ a i hsorted).symm.trans (Table.lookup_build_eq_some_iff hobjs)

/-! ## A lookup after a build -/

/-- The same as `Table.lookup_build_eq_some_iff`, of an index that is any number. -/
theorem leastFlagged_iff_lookup_build {objs : List Descriptor} (hobjs : objs.length ≤ 255) {a : Half} {i : Nat} :
    LeastFlagged objs a i ↔ i < 255 ∧ Table.lookup (Table.build objs) a = some (BitVec.ofNat 8 i) := by
  have hindex (hi : i < 255) : (BitVec.ofNat 8 i).toNat = i := Nat.mod_eq_of_lt (by omega)
  rw [Table.lookup_build_eq_some_iff hobjs]
  constructor
  · intro h
    have hi : i < 255 := h.lt_length.trans_le hobjs
    exact ⟨hi, (hindex hi).symm ▸ h⟩
  · rintro ⟨hi, h⟩
    exact hindex hi ▸ h

/-- Settles O57: the response tells what the built table holds of the address, which is its least flagged index or nothing. -/
theorem lookupAfterBuildFindsLeastFlaggedIndex : Obligations.LookupAfterBuildFindsLeastFlaggedIndex := by
  intro s objs a hobjs
  refine ⟨s.built objs, exec_aiBuild objs s, fun i => ?_, ?_⟩
  · refine (leastFlagged_iff_lookup_build hobjs).trans (and_congr_right fun hi => ?_)
    have hvalue : BitVec.ofNat 16 i = (BitVec.ofNat 8 i).setWidth 16 := by bv_omega
    rw [hvalue]
    exact (exec_aiLookup_eq_iff (s := s.built objs) (x := some _)).symm
  · exact Table.lookup_build_eq_none_iff.symm.trans (exec_aiLookup_eq_iff (s := s.built objs) (x := none)).symm

end Sys2Proof.Machine
end

section
/-! PROOFS. The step of an idle port, of a reset pulse and of every well-formed transaction, and the causes of ERR_ARG
(spec/60_exceptions.md R200, R203, R216, spec/70_reset_and_hazards.md R230, R231). -/

namespace Sys2Proof.Machine

/-! ## What every event of the port does -/

section
variable {s : State} (hwf : s.cfg.wf)
include hwf

/-- R216: the step of an idle port. -/
theorem step_of_idle (hin : s.input = []) : step s = .next s := by
  simp only [step, fetch, if_pos hwf, hin]

/-- R230, R231: the step on a reset pulse. -/
theorem step_of_reset {rest : List PortEvent} (hin : s.input = .reset :: rest) :
    step s = .next { State.init s.cfg with input := rest } := by
  simp only [step, fetch, if_pos hwf, hin, State.afterReset]

/-- R78, R200: a transaction of the announced length is a command, which answers, or an illegal word, which is answered too; the
port keeps what follows it. -/
theorem step_answers_transaction {w : Word} {b : List Byte} {rest : List PortEvent} (hin : s.input = .command w b :: rest)
    (hb : b.length = announcedBurst w) :
    ∃ t r, step s = .next t ∧ t.response = some r ∧ t.input = rest ∧ t.cfg = s.cfg := by
  obtain ⟨i, hdecode, -, hanswers⟩ | ⟨rfl, hrows, -⟩ := decodingIsTotal w b hb
  · obtain ⟨t, r, hexec, hresponse⟩ := hanswers { s with input := rest }
    obtain ⟨hcfg, hinput, -⟩ := unitsShareNoState i _ t hexec
    exact ⟨t, r, (stepRunsDecodedCommand s w b rest i hwf hin hdecode).trans hexec, hresponse, hinput, hcfg⟩
  · exact ⟨_, _, step_of_illegal hwf hin (rowOf_eq_none_iff.mpr hrows), rfl, rfl, rfl⟩

end

/-- Settles O11, by the two events of the port that are no transaction. -/
theorem idleHoldsAndResetPulseRestores : Obligations.IdleHoldsAndResetPulseRestores :=
  ⟨fun _ hwf hin => step_of_idle hwf hin, fun _ _ hwf hin => step_of_reset hwf hin⟩

/-- Settles O10, by what the port holds: nothing, a reset pulse, or a transaction, of the announced length or not. -/
theorem everyTransactionIsAnswered : Obligations.EveryTransactionIsAnswered := by
  refine ⟨fun _ r => (nomatch r), fun s hwf => ?_, fun s w b rest hwf hin hb => step_answers_transaction hwf hin hb⟩
  match hin : s.input with
  | [] => exact .inl ⟨s, step_of_idle hwf hin⟩
  | .reset :: rest => exact .inl ⟨_, step_of_reset hwf hin⟩
  | .command w b :: rest =>
    by_cases hb : b.length = announcedBurst w
    · obtain ⟨t, -, hstep, -⟩ := step_answers_transaction hwf hin hb
      exact .inl ⟨t, hstep⟩
    · exact .inr ⟨w, b, rest, rfl, hb⟩

/-! ## The causes of ERR_ARG -/

/-- R203: each listed cause is refused, by the operand checks of its command. -/
theorem exec_of_errArgCause {i : Instr} {s : State} (hwf : s.cfg.wf) (hcause : ErrArgCause s.cfg i) :
    exec i s = .next { s with response := some ⟨.errArg, 0, 0, []⟩ } := by
  cases i with
  | tcCopy f g => exact withSlot_withSlot_refused hcause
  | tcCopyhdr f g => exact withSlot_withSlot_refused hcause
  | tcSetlen f n =>
    obtain ⟨-, hrefused, -⟩ := setlenReplacesLengthAndRefusesZero s f n
    exact hrefused hcause
  | tcRdbyte f k =>
    obtain ⟨-, -, hrefused, -⟩ := rawByteAccess s f k 0 hwf
    exact (hrefused hcause).1
  | tcWrbyte f k v =>
    obtain ⟨-, -, hrefused, -⟩ := rawByteAccess s f k v hwf
    exact (hrefused hcause).2
  | aqAppend kind index short data =>
    obtain ⟨-, hrefused, -⟩ := appendEvictsOldestWhenFull s kind index short data hwf
    exact hrefused hcause
  | aqPop | aqLost | aiBuild | aiLookup => exact hcause.elim
  | _ => exact withSlot_of_ge hcause

/-- Settles O17: the causes by the operand checks, that there are no others by the producers of each status, and the step by
that of the decoded command. -/
theorem errArgExactlyOnItsCauses : Obligations.ErrArgExactlyOnItsCauses := by
  refine ⟨fun i s => exec_of_errArgCause, fun i s t r hwf hno hexec hr hstatus => ?_,
    fun i s w b rest hwf hin hdecode hcause => ?_⟩
  · obtain ⟨-, -, hproducers, -⟩ := statusesAndTheirProducers
    obtain ⟨r', hr', -, -, -, -, herrArg⟩ := hproducers i s t hexec
    obtain rfl : r' = r := Option.some.inj (hr'.symm.trans hr)
    exact hno (herrArg hwf hstatus)
  · rw [stepRunsDecodedCommand s w b rest i hwf hin hdecode]
    exact exec_of_errArgCause hwf hcause

end Sys2Proof.Machine
end

section
/-! PROOFS. What every reading command answers right after reset (spec/70_reset_and_hazards.md R232). -/

namespace Sys2Proof.Machine

/-! ## What a slot holds after reset -/

section
variable {c : Config} (hwf : c.wf) {f : Nat} (hf : f < c.nframes)
include hwf hf

/-- R33: the default frame, with R5's values. -/
theorem State.byte_init_of_wf {i : Nat} (hi : i < 23) :
    (State.init c).byte f i = if i = 0 then 0xBC else if i = 5 then 0xE1 else 0 := by
  obtain ⟨hdefaults, -, -⟩ := resetStateIsTheDefaults
  obtain ⟨hcontrol, hrouting, hzero⟩ := hdefaults c hwf f hf
  split_ifs with h0 h5
  · rw [h0, hcontrol]
  · rw [h5, hrouting]
  · exact hzero i hi h0 h5

/-- L is the low nibble of the default routing byte 0xE1 (R22). -/
theorem State.payloadLen_init : (State.init c).payloadLen f = 1 := by
  rw [State.payloadLen, State.byte_init_of_wf hwf hf (by decide)]
  decide

/-- The checksum covers the control and routing bytes and six zeros: ~(0xBC ^ 0xE1) (R140). -/
theorem State.chk_init : (State.init c).chk f = 0xA2 := by
  have hxor : (State.init c).xorUpTo f 8 = 0xBC ^^^ 0xE1 := by
    simp [State.xorUpTo, State.byte_init_of_wf hwf hf]
  rw [State.chk, State.payloadLen_init hwf hf, hxor]
  decide

/-- The long payload is all zeros (R33). -/
theorem State.bytes_init_longPayload : (State.init c).bytes f 8 14 = List.replicate 14 0 := by
  refine List.ext_getElem (by rw [State.length_bytes, List.length_replicate]) fun k hk _ => ?_
  rw [State.length_bytes] at hk
  rw [State.getElem_bytes, State.byte_init_of_wf hwf hf (by omega), if_neg (by omega), if_neg (by omega),
    List.getElem_replicate]

/-- The default frame passes checks 1 to 4 of R143 under R5's masks and values, and its checksum byte 0 is not 0xA2. -/
theorem State.verdict_init (hpm : c.ctrlPatternMask = 0x13) (hpv : c.ctrlPatternValue = 0x10)
    (hfm : c.ctrlFormatMask = 0xC0) (hfv : c.ctrlFormatStandard = 0x80) (hcm : c.cmdPatternMask = 0xC0)
    (hcv : c.cmdPatternValue = 0x00) : (State.init c).verdict f = .badChecksum := by
  have hcontrol : controlOk c ((State.init c).byte f 0) = true := by
    rw [controlOk_iff, State.byte_init_of_wf hwf hf (by decide), hpm, hpv]
    decide
  have hformat : formatOk c ((State.init c).byte f 0) = true := by
    rw [formatOk_iff, State.byte_init_of_wf hwf hf (by decide), hfm, hfv]
    decide
  have hcommand : commandFieldOk c ((State.init c).byte f 6) = true := by
    rw [commandFieldOk_iff, State.byte_init_of_wf hwf hf (by decide), hcm, hcv]
    decide
  have hwrong : (State.init c).byte f (7 + 1) ≠ (State.init c).chk f := by
    rw [State.byte_init_of_wf hwf hf (by decide), State.chk_init hwf hf]
    decide
  rw [State.verdict, State.init_cfg, State.payloadLen_init hwf hf, if_neg (not_not.mpr hcontrol),
    if_neg (not_not.mpr hformat), if_neg one_ne_zero, if_neg (not_not.mpr hcommand), if_pos hwrong]

end

/-! ## The answers -/

/-- Settles O13: each command's answer on a slot that exists, read from the default frame, the empty queue and the empty
table. -/
theorem answersRightAfterReset : Obligations.AnswersRightAfterReset := by
  intro c f hwf hf s ok
  have hbyte : ∀ i < 23, s.byte f.toNat i = if i = 0 then 0xBC else if i = 5 then 0xE1 else 0 :=
    fun i hi => State.byte_init_of_wf hwf hf hi
  have hrdbyte : ∀ i : BitVec 5, i.toNat ≤ 22 → exec (.tcRdbyte f i) s = ok ((s.byte f.toNat i.toNat).setWidth 16) :=
    fun i hi => exec_tcRdbyte hf (Nat.lt_of_le_of_lt hi (frameBytes_of_wf hwf ▸ by decide))
  refine ⟨?getpri, ?getsrc, ?getdst, ?ismc, ?gethop, ?getlen, ?getcmd, ?getfpb, ?getlp, ?tlen, ?calcchk, ?validate, ?rd0, ?rd5,
    ?rdOther, exec_aqPop_nil rfl, rfl, fun a => exec_aiLookup a s⟩
  case getpri => rw [exec_tcGetpri hf, hbyte 0 (by decide)]; rfl
  case getsrc => rw [exec_tcGetsrc hf, hbyte 1 (by decide), hbyte 2 (by decide)]; rfl
  case getdst => rw [exec_tcGetdst hf, hbyte 3 (by decide), hbyte 4 (by decide)]; rfl
  case ismc => rw [exec_tcIsmc hf, hbyte 5 (by decide)]; rfl
  case gethop => rw [exec_tcGethop hf, hbyte 5 (by decide)]; rfl
  case getlen => rw [exec_tcGetlen hf, hbyte 5 (by decide)]; rfl
  case getcmd => rw [exec_tcGetcmd hf, hbyte 6 (by decide), hbyte 7 (by decide)]; rfl
  case getfpb => rw [exec_tcGetfpb hf, hbyte 7 (by decide)]; rfl
  case getlp =>
    have hcount : clampCount s.cfg (14 : Byte).toNat = 14 := clampCount_of_wf hwf 14
    rw [exec_tcGetlp hf, hcount, State.bytes_init_longPayload hwf hf]
  case tlen =>
    have hlen : s.cfg.hdrLenOffset + s.payloadLen f.toNat = 9 := by
      rw [State.payloadLen_init hwf hf, State.init_cfg, hdrLenOffset_of_wf hwf]
    rw [exec_tcTlen hf, hlen]
    rfl
  case calcchk => rw [exec_tcCalcchk hf, State.chk_init hwf hf]; rfl
  case validate =>
    intro hpm hpv hfm hfv hcm hcv
    rw [exec_tcValidate hf, State.verdict_init hwf hf hpm hpv hfm hfv hcm hcv]
    rfl
  case rd0 => rw [hrdbyte 0 (by decide), hbyte _ (by decide)]; rfl
  case rd5 => rw [hrdbyte 5 (by decide), hbyte _ (by decide)]; rfl
  case rdOther =>
    intro i hi h0 h5
    have hn0 : i.toNat ≠ 0 := fun h => h0 (BitVec.eq_of_toNat_eq h)
    have hn5 : i.toNat ≠ 5 := fun h => h5 (BitVec.eq_of_toNat_eq h)
    rw [hrdbyte i hi, hbyte _ (by omega), if_neg hn0, if_neg hn5]
    rfl

end Sys2Proof.Machine
end
